-- ==== Sys2Proof/Word.lean ====
section
/-! DEFINITION. The Word and byte types of 00_scope.md R6 and R8. -/

namespace Sys2Proof

/-- A Word: an unsigned 256-bit value, all arithmetic modulo 2^256 (R6, R8). -/
abbrev Word := BitVec 256

/-- A byte: a natural number 0 to 255 (R8). -/
abbrev Byte := BitVec 8

end Sys2Proof
end

