-- ==== Sys2Proof/Config.lean ====
section
/-! DEFINITION. The implementation parameters of 00_scope.md R5 with their defaults.
Nothing here is a free value: the spec leaves no result open. -/

namespace Sys2Proof

/-- `INVALID_OPCODE_POLICY` (R5, D2): what an unrecognized byte does. -/
inductive InvalidOpcodePolicy where
  /-- The reference behaviour: the byte changes nothing but pc (R139). -/
  | nop
  /-- The strict alternative: the byte raises InvalidOpcode (R202). -/
  | fault
deriving DecidableEq, Repr

/-- `OPCODE_MAP` (R5, R76): the byte values of the eleven instructions whose values the source does not give. -/
structure OpcodeMap where
  mul : Byte
  mod : Byte
  lt : Byte
  gt : Byte
  eq : Byte
  and : Byte
  or : Byte
  xor : Byte
  shl : Byte
  shr : Byte
  mstore8 : Byte
deriving DecidableEq, Repr

/-- The default `OPCODE_MAP`: the values of 30_encoding.md R75 (D1: from general knowledge, not in the source; log 7). -/
def OpcodeMap.default : OpcodeMap where
  mul := 0x02
  mod := 0x06
  lt := 0x10
  gt := 0x11
  eq := 0x14
  and := 0x16
  or := 0x17
  xor := 0x18
  shl := 0x1b
  shr := 0x1c
  mstore8 := 0x53

/-- The eleven bytes of an `OPCODE_MAP`, in R75's order. -/
def OpcodeMap.bytes (m : OpcodeMap) : List Byte :=
  [m.mul, m.mod, m.lt, m.gt, m.eq, m.and, m.or, m.xor, m.shl, m.shr, m.mstore8]

/-- The parameters of R5 other than `W`, which is 256 everywhere, and `code`, which is state (R20).
A capacity is `none` for ∞. -/
structure Config where
  /-- `STACK_CAP`: the largest stack depth (D3). -/
  stackCap : Option Nat
  /-- `MEM_CAP`: the largest memory length in bytes (D4). -/
  memCap : Option Nat
  /-- `INVALID_OPCODE_POLICY` (D2). -/
  invalidOpcode : InvalidOpcodePolicy
  /-- `OPCODE_MAP` (D1). -/
  opcodes : OpcodeMap
deriving DecidableEq, Repr

/-- The reference configuration: every parameter at R5's default. -/
def Config.default : Config where
  stackCap := none
  memCap := none
  invalidOpcode := .nop
  opcodes := OpcodeMap.default

end Sys2Proof
end

