-- ==== Sys2Proof/Machine/State.lean ====
section
/-! DEFINITION. The architectural state of one core (10_state.md R20) as plain data, its construction (R230)
and its reset (R33). -/

namespace Sys2Proof.Machine

/-- The four fault kinds (R200). A fault of the spec is entered as a next state (R206), see `raiseFault`. -/
inductive FaultKind where
  /-- Raised by every instruction that pops, when the stack holds too few Words (R201). -/
  | stackUnderflow
  /-- Raised by an unrecognized byte under the policy Fault (R202). -/
  | invalidOpcode
  /-- Raised by PUSH0 and PUSHn on a stack of depth STACK_CAP (R203). -/
  | stackOverflow
  /-- Raised by MSTORE and MSTORE8 past MEM_CAP (R204). -/
  | memoryLimit
deriving DecidableEq, Repr

/-- The run status (R29). -/
inductive Status where
  | running
  | halted
  | faulted (k : FaultKind)
deriving DecidableEq, Repr

/-- Linear memory (R28): its length `msize`, and the bytes below it that are not zero, in rising address order.
An unlisted address below `msize` reads as 0 (R42: growth fills with zero); an address at or above `msize` does not
exist (R41, R52). `Memory.wf` is the canonical form (log 6). -/
structure Memory where
  cells : List Host.Cell
  msize : Nat
deriving DecidableEq, Repr

/-- The state tuple `(code, pc, stack, mem, status)` of R20, with the configuration of R5 carried beside it
(`cfg` is the model's own field; no step writes it, log 1). -/
structure State where
  cfg : Config
  /-- The code buffer (R21). -/
  code : List Byte
  /-- The instruction pointer (R22). -/
  pc : Nat
  /-- The operand stack (R25), top first: element `i` of the list is S[i] (R9, log 5). -/
  stack : List Word
  mem : Memory
  status : Status
deriving DecidableEq, Repr

/-- The reasons of `Host.Outcome.fault`. There is none: each of the spec's faults has an entry that R206 describes,
so the step that raises it answers the next state with `status` Faulted(k) (log 4). -/
inductive Fault where
deriving DecidableEq, Repr

/-- The reasons of `Host.Outcome.refused`. -/
inductive Refusal where
  /-- Raised by an arm of `exec` whose instruction has no meaning yet (safe). No arm raises it in this model. -/
  | notModelled (mnemonic : String)
deriving DecidableEq, Repr

/-- Empty memory (R33). -/
def Memory.empty : Memory := { cells := [], msize := 0 }

/-- `construct(code)` with the parameters of R5 (R230): every piece of state at its value of R33. -/
def State.construct (cfg : Config) (code : List Byte) : State where
  cfg := cfg
  code := code
  pc := 0
  stack := []
  mem := Memory.empty
  status := .running

/-- The machine right after reset: constructed in the reference configuration with no program placed (log 2). -/
def State.reset : State := State.construct Config.default []

end Sys2Proof.Machine
end

