-- ==== Sys2Proof/Machine/Ops.lean ====
section
/-! DEFINITION. The named operations over the state: memory (20_memory.md), the stack's `Push` (41_stack.md R140)
and entering a fault (60_exceptions.md R206), each once. -/

namespace Sys2Proof.Machine

/-! ## Linear memory -/

/-- What the listed cells hold at an address; an unlisted address holds 0 (R42). -/
def cellAt (cells : List Host.Cell) (addr : Nat) : Byte :=
  match cells with
  | [] => 0
  | (x, v) :: rest => if x = addr then v else cellAt rest addr

/-- The cells without those at an address. -/
def eraseCell (addr : Nat) (cells : List Host.Cell) : List Host.Cell :=
  match cells with
  | [] => []
  | (x, v) :: rest => if x = addr then eraseCell addr rest else (x, v) :: eraseCell addr rest

/-- Insert a cell before the first one at a higher address. -/
def insertCell (addr : Nat) (b : Byte) (cells : List Host.Cell) : List Host.Cell :=
  match cells with
  | [] => [(addr, b)]
  | (x, v) :: rest => if addr < x then (addr, b) :: (x, v) :: rest else (x, v) :: insertCell addr b rest

/-- Set one byte, keeping the canonical form: writing 0 removes the cell. -/
def putCell (addr : Nat) (b : Byte) (cells : List Host.Cell) : List Host.Cell :=
  if b = 0 then eraseCell addr cells else insertCell addr b (eraseCell addr cells)

/-- Set a run of bytes at rising addresses. -/
def putCells (addr : Nat) (bytes : List Byte) (cells : List Host.Cell) : List Host.Cell :=
  match bytes with
  | [] => cells
  | b :: rest => putCells (addr + 1) rest (putCell addr b cells)

/-- The cells rise strictly in address, from `lo` on, lie below `hi`, and none is 0. -/
def cellsWf (lo hi : Nat) (cells : List Host.Cell) : Bool :=
  match cells with
  | [] => true
  | (x, v) :: rest => lo ≤ x && x < hi && v ≠ 0 && cellsWf (x + 1) hi rest

/-- The canonical form of memory: strictly rising addresses below `msize`, no entry equal to 0. -/
def Memory.wf (m : Memory) : Bool := cellsWf 0 m.msize m.cells

/-- Byte `i` of memory, `mem[i]` (R9), if the address exists (R41). -/
def Memory.byte? (m : Memory) (addr : Nat) : Option Byte :=
  if addr < m.msize then some (cellAt m.cells addr) else none

/-- `MemRead(addr, n)` (R51): defined only for `addr + n <= msize` (R52). For the host's snapshot; no instruction uses it. -/
def Memory.read? (m : Memory) (addr n : Nat) : Option (List Byte) :=
  if addr + n ≤ m.msize then some ((List.range n).map fun i => cellAt m.cells (addr + i)) else none

/-- `Grow(end)` (R42): extend memory with zero bytes to at least `end_` bytes. -/
def Memory.grow (m : Memory) (end_ : Nat) : Memory := { m with msize := max m.msize end_ }

/-- Byte `i` of a Word's 32-byte big-endian encoding: `v[8*(31-i)+7 : 8*(31-i)]` (R43). -/
def wordByte (v : Word) (i : Nat) : Byte := v.extractLsb' (8 * (31 - i)) 8

/-- The 32-byte big-endian encoding of a Word (R43, R44). -/
def wordBytes (v : Word) : List Byte := (List.range 32).map (wordByte v)

/-- `MemWrite(addr, 32, v)` (R43). -/
def Memory.write32 (m : Memory) (addr : Nat) (v : Word) : Memory :=
  { m with cells := putCells addr (wordBytes v) m.cells }

/-- `MemWrite(addr, 1, v)`: "only the single least-significant byte of `value`" (R43). -/
def Memory.write8 (m : Memory) (addr : Nat) (v : Word) : Memory :=
  { m with cells := putCell addr (v.extractLsb' 0 8) m.cells }

/-- `MEM_CAP != ∞ and end > MEM_CAP` (R190, R204), computed exactly. -/
def State.exceedsMemCap (s : State) (end_ : Nat) : Bool :=
  match s.cfg.memCap with
  | none => false
  | some c => c < end_

/-! ## Faults -/

/-- The numeric code of a fault kind (R200, D18). -/
def FaultKind.code : FaultKind → Nat
  | .stackUnderflow => 1
  | .invalidOpcode => 2
  | .stackOverflow => 3
  | .memoryLimit => 4

/-- `raise F` (R206), the one way a fault is entered. `s` is the state the handler was entered with: the opcode was
fetched, so its pc is the opcode address + 1, and nothing was popped, pushed, grown or written; only `status` changes.
Control goes nowhere (no handler, no vector), and there is no return: the core has no return-from-trap instruction, and
`status` Faulted(F) is final (R208, R218). -/
def raiseFault (k : FaultKind) (s : State) : Host.Outcome State Fault Refusal :=
  .next { s with status := .faulted k }

/-! ## The stack -/

/-- `STACK_CAP != ∞ and depth = STACK_CAP` (R140, log 11). -/
def State.stackFull (s : State) : Bool := s.cfg.stackCap = some s.stack.length

/-- `Push(v)` (R140): raise StackOverflow before changing the stack, or go on with `v` on top. -/
def push (v : Word) (s : State) (k : State → Host.Outcome State Fault Refusal) : Host.Outcome State Fault Refusal :=
  if s.stackFull then raiseFault .stackOverflow s else k { s with stack := v :: s.stack }

end Sys2Proof.Machine
end

