-- ==== Sys2Proof/Machine/Operands.lean ====
section
/-! DEFINITION. The operand forms of the core (30_encoding.md R74): one popped Word, two popped Words, an immediate;
and the instruction templates over them (41_stack.md R144, R145). -/

namespace Sys2Proof.Machine

/-- `Require(1); a <- Pop()` (R141, R142): run `k` with the top Word and the rest, or raise StackUnderflow with
nothing popped. -/
def withOperand (s : State) (k : Word → List Word → Host.Outcome State Fault Refusal) :
    Host.Outcome State Fault Refusal :=
  match s.stack with
  | a :: rest => k a rest
  | [] => raiseFault .stackUnderflow s

/-- `Require(2); a <- Pop(); b <- Pop()` (R142, R143): `a` is the first-popped Word, `b` the second-popped. -/
def withOperands (s : State) (k : Word → Word → List Word → Host.Outcome State Fault Refusal) :
    Host.Outcome State Fault Refusal :=
  match s.stack with
  | a :: b :: rest => k a b rest
  | _ => raiseFault .stackUnderflow s

/-- The binary template (R144): the result takes the slot that `b` held (R146). The write-back "cannot overflow: depth
fell by 2", so it makes no STACK_CAP check (R203, log 11). -/
def binary (f : Word → Word → Word) (s : State) : Host.Outcome State Fault Refusal :=
  withOperands s fun a b rest => .next { s with stack := f a b :: rest }

/-- The unary template (R145): the result takes the slot that `a` held (R146). -/
def unary (g : Word → Word) (s : State) : Host.Outcome State Fault Refusal :=
  withOperand s fun a rest => .next { s with stack := g a :: rest }

/-- The store template (R190, R191): pop offset `a` and value `b`, check MEM_CAP on `a + 32`, grow to `a + 32`, write. -/
def store (write : Memory → Nat → Word → Memory) (s : State) : Host.Outcome State Fault Refusal :=
  withOperands s fun a b rest =>
    if s.exceedsMemCap (a.toNat + 32) then raiseFault .memoryLimit s
    else .next { s with stack := rest, mem := write (s.mem.grow (a.toNat + 32)) a.toNat b }

/-- The PUSHN template (R106): `Push(v); pc <- pc + N`, where `v` is the immediate the decoder read at pc (R73, log 12).
When the push overflows, pc stays at the opcode address + 1 (R106, R206). -/
def pushImmediate (n : Nat) (v : Word) (s : State) : Host.Outcome State Fault Refusal :=
  push v s fun t => .next { t with pc := t.pc + n }

end Sys2Proof.Machine
end

