-- ==== Sys2Proof/Machine/Arith.lean ====
section
/-! DEFINITION. Adder/subtractor, multiplier and divider (42_arith.md). `a` is the first-popped Word, `b` the second-popped;
every operation is unsigned (R155). -/

namespace Sys2Proof.Machine

/-- `(a + b) mod 2^256` (R150). -/
def addWord (a b : Word) : Word := a + b

/-- `(a * b) mod 2^256` (R151). -/
def mulWord (a b : Word) : Word := a * b

/-- `(b - a) mod 2^256`, second-popped minus first-popped (R152, C2). -/
def subWord (a b : Word) : Word := b - a

/-- `a = 0 ? 0 : floor(b / a)` (R153). -/
def divWord (a b : Word) : Word := if a = 0 then 0 else BitVec.ofNat 256 (b.toNat / a.toNat)

/-- `a = 0 ? 0 : b mod a` (R154). -/
def modWord (a b : Word) : Word := if a = 0 then 0 else BitVec.ofNat 256 (b.toNat % a.toNat)

/-- ADD (R150). -/
def execAdd (s : State) : Host.Outcome State Fault Refusal := binary addWord s

/-- MUL (R151). -/
def execMul (s : State) : Host.Outcome State Fault Refusal := binary mulWord s

/-- SUB (R152). -/
def execSub (s : State) : Host.Outcome State Fault Refusal := binary subWord s

/-- DIV (R153). Division by zero pushes 0 and raises nothing (R205). -/
def execDiv (s : State) : Host.Outcome State Fault Refusal := binary divWord s

/-- MOD (R154). Modulus zero pushes 0 and raises nothing (R205). -/
def execMod (s : State) : Host.Outcome State Fault Refusal := binary modWord s

end Sys2Proof.Machine
end

