-- ==== Sys2Proof/Machine/Flags.lean ====
section
/-! DEFINITION. The core "has no status flags and no condition codes" (10_state.md R30), so no operation here writes one.
What takes their place is the Word a comparison pushes. -/

namespace Sys2Proof.Machine

/-- The Word a comparison pushes: 1 for true, 0 for false (R30, R160 to R162). -/
def truthWord (c : Bool) : Word := if c then 1 else 0

end Sys2Proof.Machine
end

