-- ==== Sys2Proof/Machine/Compare.lean ====
section
/-! DEFINITION. Comparator (43_compare.md): unsigned, the first-popped Word `a` on the left (C6, R163). -/

namespace Sys2Proof.Machine

/-- `a < b ? 1 : 0` (R160). -/
def ltWord (a b : Word) : Word := truthWord (decide (a.toNat < b.toNat))

/-- `a > b ? 1 : 0` (R161). -/
def gtWord (a b : Word) : Word := truthWord (decide (b.toNat < a.toNat))

/-- `a = b ? 1 : 0` (R162). -/
def eqWord (a b : Word) : Word := truthWord (decide (a = b))

/-- LT (R160). -/
def execLt (s : State) : Host.Outcome State Fault Refusal := binary ltWord s

/-- GT (R161). -/
def execGt (s : State) : Host.Outcome State Fault Refusal := binary gtWord s

/-- EQ (R162). -/
def execEq (s : State) : Host.Outcome State Fault Refusal := binary eqWord s

end Sys2Proof.Machine
end

