-- ==== Sys2Proof/Machine/Logic.lean ====
section
/-! DEFINITION. Bitwise logic unit (44_logic.md), on all 256 bits independently. -/

namespace Sys2Proof.Machine

/-- `b & a` (R170). -/
def andWord (a b : Word) : Word := b &&& a

/-- `b | a` (R171). -/
def orWord (a b : Word) : Word := b ||| a

/-- `b ^ a` (R172). -/
def xorWord (a b : Word) : Word := b ^^^ a

/-- The bitwise complement, `MASK - a` (R173). -/
def notWord (a : Word) : Word := ~~~a

/-- AND (R170). -/
def execAnd (s : State) : Host.Outcome State Fault Refusal := binary andWord s

/-- OR (R171). -/
def execOr (s : State) : Host.Outcome State Fault Refusal := binary orWord s

/-- XOR (R172). -/
def execXor (s : State) : Host.Outcome State Fault Refusal := binary xorWord s

/-- NOT (R173). -/
def execNot (s : State) : Host.Outcome State Fault Refusal := unary notWord s

end Sys2Proof.Machine
end

