-- ==== Sys2Proof/Machine/Push.lean ====
section
/-! DEFINITION. PUSH1 to PUSH32 (40_fetch_dispatch.md R107 to R138): "each is rule R106 with N fixed". -/

namespace Sys2Proof.Machine

/-- PUSH1 (R107): push the 1-byte immediate. -/
def execPush1 (imm : Word) (s : State) : Host.Outcome State Fault Refusal := pushImmediate 1 imm s

/-- PUSH2 (R108): push the 2-byte immediate. -/
def execPush2 (imm : Word) (s : State) : Host.Outcome State Fault Refusal := pushImmediate 2 imm s

/-- PUSH3 (R109): push the 3-byte immediate. -/
def execPush3 (imm : Word) (s : State) : Host.Outcome State Fault Refusal := pushImmediate 3 imm s

/-- PUSH4 (R110): push the 4-byte immediate. -/
def execPush4 (imm : Word) (s : State) : Host.Outcome State Fault Refusal := pushImmediate 4 imm s

/-- PUSH5 (R111): push the 5-byte immediate. -/
def execPush5 (imm : Word) (s : State) : Host.Outcome State Fault Refusal := pushImmediate 5 imm s

/-- PUSH6 (R112): push the 6-byte immediate. -/
def execPush6 (imm : Word) (s : State) : Host.Outcome State Fault Refusal := pushImmediate 6 imm s

/-- PUSH7 (R113): push the 7-byte immediate. -/
def execPush7 (imm : Word) (s : State) : Host.Outcome State Fault Refusal := pushImmediate 7 imm s

/-- PUSH8 (R114): push the 8-byte immediate. -/
def execPush8 (imm : Word) (s : State) : Host.Outcome State Fault Refusal := pushImmediate 8 imm s

/-- PUSH9 (R115): push the 9-byte immediate. -/
def execPush9 (imm : Word) (s : State) : Host.Outcome State Fault Refusal := pushImmediate 9 imm s

/-- PUSH10 (R116): push the 10-byte immediate. -/
def execPush10 (imm : Word) (s : State) : Host.Outcome State Fault Refusal := pushImmediate 10 imm s

/-- PUSH11 (R117): push the 11-byte immediate. -/
def execPush11 (imm : Word) (s : State) : Host.Outcome State Fault Refusal := pushImmediate 11 imm s

/-- PUSH12 (R118): push the 12-byte immediate. -/
def execPush12 (imm : Word) (s : State) : Host.Outcome State Fault Refusal := pushImmediate 12 imm s

/-- PUSH13 (R119): push the 13-byte immediate. -/
def execPush13 (imm : Word) (s : State) : Host.Outcome State Fault Refusal := pushImmediate 13 imm s

/-- PUSH14 (R120): push the 14-byte immediate. -/
def execPush14 (imm : Word) (s : State) : Host.Outcome State Fault Refusal := pushImmediate 14 imm s

/-- PUSH15 (R121): push the 15-byte immediate. -/
def execPush15 (imm : Word) (s : State) : Host.Outcome State Fault Refusal := pushImmediate 15 imm s

/-- PUSH16 (R122): push the 16-byte immediate. -/
def execPush16 (imm : Word) (s : State) : Host.Outcome State Fault Refusal := pushImmediate 16 imm s

/-- PUSH17 (R123): push the 17-byte immediate. -/
def execPush17 (imm : Word) (s : State) : Host.Outcome State Fault Refusal := pushImmediate 17 imm s

/-- PUSH18 (R124): push the 18-byte immediate. -/
def execPush18 (imm : Word) (s : State) : Host.Outcome State Fault Refusal := pushImmediate 18 imm s

/-- PUSH19 (R125): push the 19-byte immediate. -/
def execPush19 (imm : Word) (s : State) : Host.Outcome State Fault Refusal := pushImmediate 19 imm s

/-- PUSH20 (R126): push the 20-byte immediate. -/
def execPush20 (imm : Word) (s : State) : Host.Outcome State Fault Refusal := pushImmediate 20 imm s

/-- PUSH21 (R127): push the 21-byte immediate. -/
def execPush21 (imm : Word) (s : State) : Host.Outcome State Fault Refusal := pushImmediate 21 imm s

/-- PUSH22 (R128): push the 22-byte immediate. -/
def execPush22 (imm : Word) (s : State) : Host.Outcome State Fault Refusal := pushImmediate 22 imm s

/-- PUSH23 (R129): push the 23-byte immediate. -/
def execPush23 (imm : Word) (s : State) : Host.Outcome State Fault Refusal := pushImmediate 23 imm s

/-- PUSH24 (R130): push the 24-byte immediate. -/
def execPush24 (imm : Word) (s : State) : Host.Outcome State Fault Refusal := pushImmediate 24 imm s

/-- PUSH25 (R131): push the 25-byte immediate. -/
def execPush25 (imm : Word) (s : State) : Host.Outcome State Fault Refusal := pushImmediate 25 imm s

/-- PUSH26 (R132): push the 26-byte immediate. -/
def execPush26 (imm : Word) (s : State) : Host.Outcome State Fault Refusal := pushImmediate 26 imm s

/-- PUSH27 (R133): push the 27-byte immediate. -/
def execPush27 (imm : Word) (s : State) : Host.Outcome State Fault Refusal := pushImmediate 27 imm s

/-- PUSH28 (R134): push the 28-byte immediate. -/
def execPush28 (imm : Word) (s : State) : Host.Outcome State Fault Refusal := pushImmediate 28 imm s

/-- PUSH29 (R135): push the 29-byte immediate. -/
def execPush29 (imm : Word) (s : State) : Host.Outcome State Fault Refusal := pushImmediate 29 imm s

/-- PUSH30 (R136): push the 30-byte immediate. -/
def execPush30 (imm : Word) (s : State) : Host.Outcome State Fault Refusal := pushImmediate 30 imm s

/-- PUSH31 (R137): push the 31-byte immediate. -/
def execPush31 (imm : Word) (s : State) : Host.Outcome State Fault Refusal := pushImmediate 31 imm s

/-- PUSH32 (R138): push the 32-byte immediate. -/
def execPush32 (imm : Word) (s : State) : Host.Outcome State Fault Refusal := pushImmediate 32 imm s

end Sys2Proof.Machine
end

