-- ==== Sys2Proof/Machine/Shift.lean ====
section
/-! DEFINITION. Modular shifter (45_shift.md). The amount is the whole first-popped Word `a`, the value is the second-popped
`b` (R182, C1; log 9). -/

namespace Sys2Proof.Machine

/-- `a >= 256 ? 0 : (b << a) mod 2^256` (R180). -/
def shlWord (a b : Word) : Word := if 256 ≤ a.toNat then 0 else b <<< a.toNat

/-- `a >= 256 ? 0 : b >> a`, zero bits entering at bit 255 (R181). -/
def shrWord (a b : Word) : Word := if 256 ≤ a.toNat then 0 else b >>> a.toNat

/-- SHL (R180). -/
def execShl (s : State) : Host.Outcome State Fault Refusal := binary shlWord s

/-- SHR (R181). -/
def execShr (s : State) : Host.Outcome State Fault Refusal := binary shrWord s

end Sys2Proof.Machine
end

