-- ==== Sys2Proof/Machine/Stack.lean ====
section
/-! DEFINITION. POP (41_stack.md) and PUSH0 (40_fetch_dispatch.md). -/

namespace Sys2Proof.Machine

/-- POP (R147): discard the top Word. -/
def execPop (s : State) : Host.Outcome State Fault Refusal :=
  withOperand s fun _ rest => .next { s with stack := rest }

/-- PUSH0 (R105): push the Word 0; no operand bytes. -/
def execPush0 (s : State) : Host.Outcome State Fault Refusal := push 0 s .next

end Sys2Proof.Machine
end

