-- ==== Sys2Proof/Machine/Store.lean ====
section
/-! DEFINITION. Memory write unit (46_memory_ops.md). -/

namespace Sys2Proof.Machine

/-- MSTORE (R190): store a Word as 32 big-endian bytes. -/
def execMstore (s : State) : Host.Outcome State Fault Refusal := store Memory.write32 s

/-- MSTORE8 (R191): store the least significant byte, growing memory as a 32-byte store does (C5). -/
def execMstore8 (s : State) : Host.Outcome State Fault Refusal := store Memory.write8 s

end Sys2Proof.Machine
end

