-- ==== Sys2Proof/Syntax.lean ====
section
/-! DEFINITION. The instructions: one constructor per row of spec/opcode_table.json (30_encoding.md R75, R80),
with the columns of R75 that describe them: immediate bytes, pops and pushes. -/

namespace Sys2Proof

/-- The 50 recognized instructions (R75). A PUSHn carries the value of its N immediate bytes (R73), which
`Instr.wellFormed` holds below 2^(8N). -/
inductive Instr where
  /-- ADD (R150). -/
  | add
  /-- MUL (R151). -/
  | mul
  /-- SUB (R152). -/
  | sub
  /-- DIV (R153). -/
  | div
  /-- MOD (R154). -/
  | mod
  /-- LT (R160). -/
  | lt
  /-- GT (R161). -/
  | gt
  /-- EQ (R162). -/
  | eq
  /-- AND (R170). -/
  | and
  /-- OR (R171). -/
  | or
  /-- XOR (R172). -/
  | xor
  /-- NOT (R173). -/
  | not
  /-- SHL (R180). -/
  | shl
  /-- SHR (R181). -/
  | shr
  /-- POP (R147). -/
  | pop
  /-- MSTORE (R190). -/
  | mstore
  /-- MSTORE8 (R191). -/
  | mstore8
  /-- PUSH0 (R105). -/
  | push0
  /-- PUSH1 (R107). -/
  | push1 (imm : Word)
  /-- PUSH2 (R108). -/
  | push2 (imm : Word)
  /-- PUSH3 (R109). -/
  | push3 (imm : Word)
  /-- PUSH4 (R110). -/
  | push4 (imm : Word)
  /-- PUSH5 (R111). -/
  | push5 (imm : Word)
  /-- PUSH6 (R112). -/
  | push6 (imm : Word)
  /-- PUSH7 (R113). -/
  | push7 (imm : Word)
  /-- PUSH8 (R114). -/
  | push8 (imm : Word)
  /-- PUSH9 (R115). -/
  | push9 (imm : Word)
  /-- PUSH10 (R116). -/
  | push10 (imm : Word)
  /-- PUSH11 (R117). -/
  | push11 (imm : Word)
  /-- PUSH12 (R118). -/
  | push12 (imm : Word)
  /-- PUSH13 (R119). -/
  | push13 (imm : Word)
  /-- PUSH14 (R120). -/
  | push14 (imm : Word)
  /-- PUSH15 (R121). -/
  | push15 (imm : Word)
  /-- PUSH16 (R122). -/
  | push16 (imm : Word)
  /-- PUSH17 (R123). -/
  | push17 (imm : Word)
  /-- PUSH18 (R124). -/
  | push18 (imm : Word)
  /-- PUSH19 (R125). -/
  | push19 (imm : Word)
  /-- PUSH20 (R126). -/
  | push20 (imm : Word)
  /-- PUSH21 (R127). -/
  | push21 (imm : Word)
  /-- PUSH22 (R128). -/
  | push22 (imm : Word)
  /-- PUSH23 (R129). -/
  | push23 (imm : Word)
  /-- PUSH24 (R130). -/
  | push24 (imm : Word)
  /-- PUSH25 (R131). -/
  | push25 (imm : Word)
  /-- PUSH26 (R132). -/
  | push26 (imm : Word)
  /-- PUSH27 (R133). -/
  | push27 (imm : Word)
  /-- PUSH28 (R134). -/
  | push28 (imm : Word)
  /-- PUSH29 (R135). -/
  | push29 (imm : Word)
  /-- PUSH30 (R136). -/
  | push30 (imm : Word)
  /-- PUSH31 (R137). -/
  | push31 (imm : Word)
  /-- PUSH32 (R138). -/
  | push32 (imm : Word)
deriving DecidableEq, Repr

/-- How many immediate bytes follow the opcode byte (R72). -/
def Instr.immBytes : Instr → Nat
  | .add | .mul | .sub | .div | .mod | .lt | .gt | .eq | .and | .or | .xor => 0
  | .not | .shl | .shr | .pop | .mstore | .mstore8 | .push0 => 0
  | .push1 _ => 1
  | .push2 _ => 2
  | .push3 _ => 3
  | .push4 _ => 4
  | .push5 _ => 5
  | .push6 _ => 6
  | .push7 _ => 7
  | .push8 _ => 8
  | .push9 _ => 9
  | .push10 _ => 10
  | .push11 _ => 11
  | .push12 _ => 12
  | .push13 _ => 13
  | .push14 _ => 14
  | .push15 _ => 15
  | .push16 _ => 16
  | .push17 _ => 17
  | .push18 _ => 18
  | .push19 _ => 19
  | .push20 _ => 20
  | .push21 _ => 21
  | .push22 _ => 22
  | .push23 _ => 23
  | .push24 _ => 24
  | .push25 _ => 25
  | .push26 _ => 26
  | .push27 _ => 27
  | .push28 _ => 28
  | .push29 _ => 29
  | .push30 _ => 30
  | .push31 _ => 31
  | .push32 _ => 32

/-- The length of an instruction in bytes: the opcode byte and the immediate (R72). -/
def Instr.length (i : Instr) : Nat := 1 + i.immBytes

/-- R75's column "pops": the depth the instruction requires and removes. -/
def Instr.pops : Instr → Nat
  | .add | .mul | .sub | .div | .mod | .lt | .gt | .eq | .and | .or | .xor | .shl | .shr | .mstore | .mstore8 => 2
  | .not | .pop => 1
  | .push0 => 0
  | .push1 _ | .push2 _ | .push3 _ | .push4 _ | .push5 _ | .push6 _ | .push7 _ | .push8 _ => 0
  | .push9 _ | .push10 _ | .push11 _ | .push12 _ | .push13 _ | .push14 _ | .push15 _ | .push16 _ => 0
  | .push17 _ | .push18 _ | .push19 _ | .push20 _ | .push21 _ | .push22 _ | .push23 _ | .push24 _ => 0
  | .push25 _ | .push26 _ | .push27 _ | .push28 _ | .push29 _ | .push30 _ | .push31 _ | .push32 _ => 0

/-- R75's column "pushes": the Words the instruction adds. -/
def Instr.pushes : Instr → Nat
  | .add | .mul | .sub | .div | .mod | .lt | .gt | .eq | .and | .or | .xor | .shl | .shr | .not => 1
  | .pop | .mstore | .mstore8 => 0
  | .push0 => 1
  | .push1 _ | .push2 _ | .push3 _ | .push4 _ | .push5 _ | .push6 _ | .push7 _ | .push8 _ => 1
  | .push9 _ | .push10 _ | .push11 _ | .push12 _ | .push13 _ | .push14 _ | .push15 _ | .push16 _ => 1
  | .push17 _ | .push18 _ | .push19 _ | .push20 _ | .push21 _ | .push22 _ | .push23 _ | .push24 _ => 1
  | .push25 _ | .push26 _ | .push27 _ | .push28 _ | .push29 _ | .push30 _ | .push31 _ | .push32 _ => 1

/-- The value a PUSHn carries; 0 for the instructions without an immediate. -/
def Instr.imm : Instr → Word
  | .add | .mul | .sub | .div | .mod | .lt | .gt | .eq | .and | .or | .xor => 0
  | .not | .shl | .shr | .pop | .mstore | .mstore8 | .push0 => 0
  | .push1 v => v
  | .push2 v => v
  | .push3 v => v
  | .push4 v => v
  | .push5 v => v
  | .push6 v => v
  | .push7 v => v
  | .push8 v => v
  | .push9 v => v
  | .push10 v => v
  | .push11 v => v
  | .push12 v => v
  | .push13 v => v
  | .push14 v => v
  | .push15 v => v
  | .push16 v => v
  | .push17 v => v
  | .push18 v => v
  | .push19 v => v
  | .push20 v => v
  | .push21 v => v
  | .push22 v => v
  | .push23 v => v
  | .push24 v => v
  | .push25 v => v
  | .push26 v => v
  | .push27 v => v
  | .push28 v => v
  | .push29 v => v
  | .push30 v => v
  | .push31 v => v
  | .push32 v => v

/-- Whether the instruction is one of PUSH0, PUSH1 to PUSH32, the only ones that can raise StackOverflow (R203). -/
def Instr.isPush : Instr → Bool
  | .add | .mul | .sub | .div | .mod | .lt | .gt | .eq | .and | .or | .xor => false
  | .not | .shl | .shr | .pop | .mstore | .mstore8 => false
  | .push0 => true
  | .push1 _ | .push2 _ | .push3 _ | .push4 _ | .push5 _ | .push6 _ | .push7 _ | .push8 _ => true
  | .push9 _ | .push10 _ | .push11 _ | .push12 _ | .push13 _ | .push14 _ | .push15 _ | .push16 _ => true
  | .push17 _ | .push18 _ | .push19 _ | .push20 _ | .push21 _ | .push22 _ | .push23 _ | .push24 _ => true
  | .push25 _ | .push26 _ | .push27 _ | .push28 _ | .push29 _ | .push30 _ | .push31 _ | .push32 _ => true

/-- Whether the instruction is MSTORE or MSTORE8, the only ones that write memory (R28). -/
def Instr.isStore : Instr → Bool
  | .mstore | .mstore8 => true
  | .add | .mul | .sub | .div | .mod | .lt | .gt | .eq | .and | .or | .xor | .not | .shl | .shr | .pop | .push0 => false
  | .push1 _ | .push2 _ | .push3 _ | .push4 _ | .push5 _ | .push6 _ | .push7 _ | .push8 _ => false
  | .push9 _ | .push10 _ | .push11 _ | .push12 _ | .push13 _ | .push14 _ | .push15 _ | .push16 _ => false
  | .push17 _ | .push18 _ | .push19 _ | .push20 _ | .push21 _ | .push22 _ | .push23 _ | .push24 _ => false
  | .push25 _ | .push26 _ | .push27 _ | .push28 _ | .push29 _ | .push30 _ | .push31 _ | .push32 _ => false

end Sys2Proof
end

