-- ==== Sys2Proof/Machine/Dispatch.lean ====
section
/-! DEFINITION. Dispatch (40_fetch_dispatch.md R103): one handler per instruction. `exec` runs the handler on the state
after the fetch, whose pc is the opcode address + 1 (R23). -/

namespace Sys2Proof.Machine

def exec (i : Instr) (s : State) : Host.Outcome State Fault Refusal :=
  match i with
  | .add => Sys2Proof.Machine.execAdd s
  | .mul => Sys2Proof.Machine.execMul s
  | .sub => Sys2Proof.Machine.execSub s
  | .div => Sys2Proof.Machine.execDiv s
  | .mod => Sys2Proof.Machine.execMod s
  | .lt => Sys2Proof.Machine.execLt s
  | .gt => Sys2Proof.Machine.execGt s
  | .eq => Sys2Proof.Machine.execEq s
  | .and => Sys2Proof.Machine.execAnd s
  | .or => Sys2Proof.Machine.execOr s
  | .xor => Sys2Proof.Machine.execXor s
  | .not => Sys2Proof.Machine.execNot s
  | .shl => Sys2Proof.Machine.execShl s
  | .shr => Sys2Proof.Machine.execShr s
  | .pop => Sys2Proof.Machine.execPop s
  | .mstore => Sys2Proof.Machine.execMstore s
  | .mstore8 => Sys2Proof.Machine.execMstore8 s
  | .push0 => Sys2Proof.Machine.execPush0 s
  | .push1 imm => Sys2Proof.Machine.execPush1 imm s
  | .push2 imm => Sys2Proof.Machine.execPush2 imm s
  | .push3 imm => Sys2Proof.Machine.execPush3 imm s
  | .push4 imm => Sys2Proof.Machine.execPush4 imm s
  | .push5 imm => Sys2Proof.Machine.execPush5 imm s
  | .push6 imm => Sys2Proof.Machine.execPush6 imm s
  | .push7 imm => Sys2Proof.Machine.execPush7 imm s
  | .push8 imm => Sys2Proof.Machine.execPush8 imm s
  | .push9 imm => Sys2Proof.Machine.execPush9 imm s
  | .push10 imm => Sys2Proof.Machine.execPush10 imm s
  | .push11 imm => Sys2Proof.Machine.execPush11 imm s
  | .push12 imm => Sys2Proof.Machine.execPush12 imm s
  | .push13 imm => Sys2Proof.Machine.execPush13 imm s
  | .push14 imm => Sys2Proof.Machine.execPush14 imm s
  | .push15 imm => Sys2Proof.Machine.execPush15 imm s
  | .push16 imm => Sys2Proof.Machine.execPush16 imm s
  | .push17 imm => Sys2Proof.Machine.execPush17 imm s
  | .push18 imm => Sys2Proof.Machine.execPush18 imm s
  | .push19 imm => Sys2Proof.Machine.execPush19 imm s
  | .push20 imm => Sys2Proof.Machine.execPush20 imm s
  | .push21 imm => Sys2Proof.Machine.execPush21 imm s
  | .push22 imm => Sys2Proof.Machine.execPush22 imm s
  | .push23 imm => Sys2Proof.Machine.execPush23 imm s
  | .push24 imm => Sys2Proof.Machine.execPush24 imm s
  | .push25 imm => Sys2Proof.Machine.execPush25 imm s
  | .push26 imm => Sys2Proof.Machine.execPush26 imm s
  | .push27 imm => Sys2Proof.Machine.execPush27 imm s
  | .push28 imm => Sys2Proof.Machine.execPush28 imm s
  | .push29 imm => Sys2Proof.Machine.execPush29 imm s
  | .push30 imm => Sys2Proof.Machine.execPush30 imm s
  | .push31 imm => Sys2Proof.Machine.execPush31 imm s
  | .push32 imm => Sys2Proof.Machine.execPush32 imm s

end Sys2Proof.Machine
end

