-- ==== Sys2Proof/WellFormed.lean ====
section
/-! DEFINITION. Well-formed instructions and well-formed opcode maps, as Bools. -/

namespace Sys2Proof

/-- An instruction is well formed when its immediate fits its N bytes: "requires `v < 2^(8N)`" (R79, R73).
An instruction without an immediate has N = 0 and value 0. -/
def Instr.wellFormed (i : Instr) : Bool := i.imm.toNat < 2 ^ (8 * i.immBytes)

/-- The bytes R75 gives from the source: ADD, SUB, DIV, NOT, POP, MSTORE and PUSH0, without the PUSHn range. -/
def fixedOpcodes : List Byte := [0x01, 0x03, 0x04, 0x19, 0x50, 0x52, 0x5f]

/-- Whether a byte is one of the 32 PUSHn opcodes 0x60 to 0x7f (R72). -/
def isPushByte (op : Byte) : Bool := 0x60 ≤ op.toNat && op.toNat ≤ 0x7f

/-- An `OPCODE_MAP` is well formed when its eleven bytes are distinct and none is a byte the source assigns:
each byte then "decodes to exactly one" instruction (R76, R78; log 8). -/
def OpcodeMap.wellFormed (m : OpcodeMap) : Bool :=
  decide (fixedOpcodes ++ m.bytes).Nodup && m.bytes.all (fun b => !isPushByte b)

/-- Whether a byte is recognized under an `OPCODE_MAP` (R75); every other byte is unrecognized (R77). -/
def OpcodeMap.recognizes (m : OpcodeMap) (op : Byte) : Bool :=
  isPushByte op || fixedOpcodes.contains op || m.bytes.contains op

end Sys2Proof
end

