-- ==== Sys2Proof/Decode.lean ====
section
/-! DEFINITION. The decoder, total on any bytes and rejecting by name; after it the encoder, written from the same
tables of 30_encoding.md; and the word forms of both that spec/opcode_table.json numbers. -/

namespace Sys2Proof

/-- Why the decoder rejects. -/
inductive DecodeError where
  /-- There is no byte to decode: pc is past the end of the code (R101). -/
  | noByte
  /-- The first byte is one of R77's unrecognized bytes; its effect is R139's (log 14). -/
  | unrecognized (op : Byte)
deriving DecidableEq, Repr

/-- Byte `i` of a byte sequence, 0 at and past its end ("code is implicitly zero-extended", R73). -/
def byteOrZero (bytes : List Byte) (i : Nat) : Byte := bytes[i]?.getD 0

/-- The loop of `ReadImm` (R73) after `n` rounds: `v <- v * 256 + byte` from 0. -/
def readImmValue (bytes : List Byte) (p : Nat) : Nat → Nat
  | 0 => 0
  | n + 1 => readImmValue bytes p n * 256 + (byteOrZero bytes (p + n)).toNat

/-- `ReadImm(p, N)` (R73): the N bytes at `p`, big-endian, zero-padded on the right, zero-extended to a Word. -/
def readImm (bytes : List Byte) (p n : Nat) : Word := BitVec.ofNat 256 (readImmValue bytes p n)

/-- PUSHN with a given immediate value; there is one for N = 1 to 32 (R75). -/
def pushInstr (n : Nat) (v : Word) : Option Instr :=
  match n with
  | 1 => some (.push1 v)
  | 2 => some (.push2 v)
  | 3 => some (.push3 v)
  | 4 => some (.push4 v)
  | 5 => some (.push5 v)
  | 6 => some (.push6 v)
  | 7 => some (.push7 v)
  | 8 => some (.push8 v)
  | 9 => some (.push9 v)
  | 10 => some (.push10 v)
  | 11 => some (.push11 v)
  | 12 => some (.push12 v)
  | 13 => some (.push13 v)
  | 14 => some (.push14 v)
  | 15 => some (.push15 v)
  | 16 => some (.push16 v)
  | 17 => some (.push17 v)
  | 18 => some (.push18 v)
  | 19 => some (.push19 v)
  | 20 => some (.push20 v)
  | 21 => some (.push21 v)
  | 22 => some (.push22 v)
  | 23 => some (.push23 v)
  | 24 => some (.push24 v)
  | 25 => some (.push25 v)
  | 26 => some (.push26 v)
  | 27 => some (.push27 v)
  | 28 => some (.push28 v)
  | 29 => some (.push29 v)
  | 30 => some (.push30 v)
  | 31 => some (.push31 v)
  | 32 => some (.push32 v)
  | _ => none

/-- The format O rows of the opcode table (R75): the bytes the source gives, then the eleven of `OPCODE_MAP` (R76).
In a map that is not well formed the first row of a byte wins (log 8). -/
def opcodeTable (m : OpcodeMap) : List (Byte × Instr) :=
  [(0x01, .add), (0x03, .sub), (0x04, .div), (0x19, .not), (0x50, .pop), (0x52, .mstore), (0x5f, .push0),
   (m.mul, .mul), (m.mod, .mod), (m.lt, .lt), (m.gt, .gt), (m.eq, .eq), (m.and, .and), (m.or, .or),
   (m.xor, .xor), (m.shl, .shl), (m.shr, .shr), (m.mstore8, .mstore8)]

/-- The instruction that the opcode byte at the head of `bytes` selects, if it is recognized (R103):
0x60 to 0x7f select PUSHN with N = op - 0x5f, another byte is looked up whole. -/
def decodeOpcode (m : OpcodeMap) (op : Byte) (bytes : List Byte) : Option Instr :=
  if isPushByte op then
    pushInstr (op.toNat - 0x5f) (readImm bytes 1 (op.toNat - 0x5f))
  else
    (opcodeTable m).lookup op

/-- The decoder (R70, R78): reads one instruction from the head of a byte sequence. Immediate bytes past the end read as 0. -/
def decode (m : OpcodeMap) (bytes : List Byte) : Except DecodeError Instr :=
  match bytes with
  | [] => .error .noByte
  | op :: _ =>
    match decodeOpcode m op bytes with
    | some i => .ok i
    | none => .error (.unrecognized op)

/-- The opcode byte of an instruction (R75; `0x5f + N` for PUSHN, R79). -/
def opcode (m : OpcodeMap) : Instr → Byte
  | .add => 0x01
  | .mul => m.mul
  | .sub => 0x03
  | .div => 0x04
  | .mod => m.mod
  | .lt => m.lt
  | .gt => m.gt
  | .eq => m.eq
  | .and => m.and
  | .or => m.or
  | .xor => m.xor
  | .not => 0x19
  | .shl => m.shl
  | .shr => m.shr
  | .pop => 0x50
  | .mstore => 0x52
  | .mstore8 => m.mstore8
  | .push0 => 0x5f
  | .push1 _ => 0x60
  | .push2 _ => 0x61
  | .push3 _ => 0x62
  | .push4 _ => 0x63
  | .push5 _ => 0x64
  | .push6 _ => 0x65
  | .push7 _ => 0x66
  | .push8 _ => 0x67
  | .push9 _ => 0x68
  | .push10 _ => 0x69
  | .push11 _ => 0x6a
  | .push12 _ => 0x6b
  | .push13 _ => 0x6c
  | .push14 _ => 0x6d
  | .push15 _ => 0x6e
  | .push16 _ => 0x6f
  | .push17 _ => 0x70
  | .push18 _ => 0x71
  | .push19 _ => 0x72
  | .push20 _ => 0x73
  | .push21 _ => 0x74
  | .push22 _ => 0x75
  | .push23 _ => 0x76
  | .push24 _ => 0x77
  | .push25 _ => 0x78
  | .push26 _ => 0x79
  | .push27 _ => 0x7a
  | .push28 _ => 0x7b
  | .push29 _ => 0x7c
  | .push30 _ => 0x7d
  | .push31 _ => 0x7e
  | .push32 _ => 0x7f

/-- The immediate field of format P: byte `k` of 1 to N is bits `[8*(N-k)+7 : 8*(N-k)]` of the value (R71);
`n` counts the bytes still to write, the most significant first. -/
def immBytesOf (v : Word) : Nat → List Byte
  | 0 => []
  | n + 1 => v.extractLsb' (8 * n) 8 :: immBytesOf v n

/-- The encoder: the opcode byte, then the N immediate bytes (R71). -/
def encode (m : OpcodeMap) (i : Instr) : List Byte := opcode m i :: immBytesOf i.imm i.immBytes

/-- The length of the longest instruction, PUSH32 (R72). -/
def longestInstr : Nat := 33

/-- The bytes of an instruction numbered as spec/opcode_table.json numbers it: bit 0 is the least significant bit of the
first byte, the second byte is bits 15..8; the bits at and above `nbits` are 0, up to the longest instruction. -/
def tableBytes (nbits w : Nat) : List Byte :=
  (List.range longestInstr).map fun k => BitVec.ofNat 8 ((w % 2 ^ nbits) / 2 ^ (8 * k))

/-- What the decoder reads from an instruction word of the table, under the table's own opcode values (R75). -/
def decodeTableWord (nbits w : Nat) : Option Instr :=
  match decode OpcodeMap.default (tableBytes nbits w) with
  | .ok i => some i
  | .error _ => none

end Sys2Proof
end

