-- ==== Sys2Proof/Machine/Fetch.lean ====
section
/-! DEFINITION. Instruction fetch and decode at pc, the halt, and the unrecognized byte (40_fetch_dispatch.md);
and placing an instruction where the next fetch finds it. -/

namespace Sys2Proof.Machine

/-- `pc >= len(code)` (R100, R101). -/
def State.atEnd (s : State) : Bool := s.code.length ≤ s.pc

/-- Halt (R101): `status <- Halted`, nothing else changes. -/
def halt (s : State) : State := { s with status := .halted }

/-- What the decoder reads at pc, under the core's `OPCODE_MAP` (R103). The immediate of a PUSHn is read here, from the
bytes after the opcode, zero past the end of the code (R73, log 12). -/
def decodeAtPc (s : State) : Except DecodeError Instr := decode s.cfg.opcodes (s.code.drop s.pc)

/-- `fetchNext()` (R102): pc moves past the opcode byte. While a handler runs, pc is the opcode address + 1 (R23). -/
def fetchNext (s : State) : State := { s with pc := s.pc + 1 }

/-- An unrecognized byte (R139): nothing under the policy Nop, InvalidOpcode under Fault (R202). -/
def execUnrecognized (s : State) : Host.Outcome State Fault Refusal :=
  match s.cfg.invalidOpcode with
  | .nop => .next s
  | .fault => raiseFault .invalidOpcode s

/-- A code buffer with `bytes` at address `pc`: what stood before `pc` stays (zero bytes fill a gap before it), and so
does what stood after them. -/
def placeBytes (code : List Byte) (pc : Nat) (bytes : List Byte) : List Byte :=
  code.take pc ++ List.replicate (pc - code.length) 0 ++ bytes ++ code.drop (pc + bytes.length)

end Sys2Proof.Machine
end

