-- ==== Sys2Proof/Machine/Step.lean ====
section
/-! DEFINITION. One step of the core (40_fetch_dispatch.md R100), and placing an instruction where the next step fetches. -/

namespace Sys2Proof.Machine

/-- One step (R100). While `status` is Running it halts at the end of the code (R101) or fetches, decodes and executes
one whole instruction (R102, R103, R139). In a final status "the core takes no step" and nothing changes: the host's
request leaves the state as it is (R218, log 3). -/
def step (s : State) : Host.Outcome State Fault Refusal :=
  match s.status with
  | .running =>
    if s.atEnd then .next (halt s)
    else
      match decodeAtPc s with
      | .ok i => exec i (fetchNext s)
      | .error _ => execUnrecognized (fetchNext s)
  | .halted => .next s
  | .faulted _ => .next s

/-- `s` with an instruction word of spec/opcode_table.json stored where the next step fetches, at pc in the code buffer.
It stands for the host's construction with that program (R230); the fetch also needs `status` Running (R100), which it
sets; it changes nothing else (log 2). -/
def State.withFetchWord (s : State) (nbits w : Nat) : State :=
  { s with code := placeBytes s.code s.pc (tableBytes nbits w), status := .running }

end Sys2Proof.Machine
end

