-- ==== Sys2Proof/Machine/Run.lean ====
section
/-! DEFINITION. The host's interface beside `step` (70_reset_and_hazards.md): `run()` (R233) and what the host reads
at a step boundary (R234, R235, R236). -/

namespace Sys2Proof.Machine

/-- At most `n` steps, taken while `status` is Running (R233). -/
def runSteps (n : Nat) (s : State) : Host.Outcome State Fault Refusal :=
  match n with
  | 0 => .next s
  | n + 1 =>
    match s.status with
    | .running =>
      match step s with
      | .next t => runSteps n t
      | o => o
    | .halted => .next s
    | .faulted _ => .next s

/-- `run()` (R233). The bound is R240's: at most `len(code)` instruction steps and one halting step, counted from pc. -/
def run (s : State) : Host.Outcome State Fault Refusal := runSteps (s.code.length - s.pc + 1) s

/-- The fault code the host reads beside `status` when it is Faulted(k) (R200, R234, D18). -/
def State.faultCode (s : State) : Option Nat :=
  match s.status with
  | .faulted k => some k.code
  | .running => none
  | .halted => none

/-- The stack snapshot: the Words from bottom (first pushed) to top (R235, D6). -/
def State.stackSnapshot (s : State) : List Word := s.stack.reverse

/-- The memory snapshot: all bytes `mem[0 .. msize-1]` (R235). -/
def State.memorySnapshot (s : State) : List Byte := (List.range s.mem.msize).map (cellAt s.mem.cells)

/-- The observation of a run that has ended: (`status`, stack snapshot, memory snapshot); a run that has not ended has
none (R236). -/
def State.observation (s : State) : Option (Status × List Word × List Byte) :=
  match s.status with
  | .running => none
  | .halted => some (s.status, s.stackSnapshot, s.memorySnapshot)
  | .faulted _ => some (s.status, s.stackSnapshot, s.memorySnapshot)

end Sys2Proof.Machine
end

