-- ==== Sys2Proof/Safety.lean ====
section
/-! DEFINITION. What claims are stated in: the invariant of the reachable states, and a safe run. -/

namespace Sys2Proof.Machine

/-- A size within a capacity, where `none` is ∞ (R5). -/
def withinCap (cap : Option Nat) (n : Nat) : Bool :=
  match cap with
  | none => true
  | some c => n ≤ c

/-- Whether a fault kind exists in a configuration: R200's column "exists when". -/
def FaultKind.existsIn (k : FaultKind) (cfg : Config) : Bool :=
  match k with
  | .stackUnderflow => true
  | .invalidOpcode => cfg.invalidOpcode = .fault
  | .stackOverflow => cfg.stackCap.isSome
  | .memoryLimit => cfg.memCap.isSome

/-- What each status says of the state: Halted is reached at the end of the code (R101); a fault is of a kind that exists
(R200), and pc is then one past a code address (R206). -/
def State.statusOk (s : State) : Bool :=
  match s.status with
  | .running => true
  | .halted => s.code.length ≤ s.pc
  | .faulted k => k.existsIn s.cfg && 0 < s.pc && s.pc ≤ s.code.length

/-- The invariant of every reachable state: canonical memory, pc at most `len(code) + 32` (R22), depth within STACK_CAP
(R25), memory length within MEM_CAP (R5), and a status that fits. -/
abbrev State.Inv (s : State) : Prop :=
  s.mem.wf = true ∧ s.pc ≤ s.code.length + 32 ∧ withinCap s.cfg.stackCap s.stack.length = true ∧
    withinCap s.cfg.memCap s.mem.msize = true ∧ s.statusOk = true

/-- The run has ended (R236). -/
abbrev State.Final (s : State) : Prop := s.status ≠ .running

/-- A safe state: no fault has been raised. -/
def State.Safe (s : State) : Prop := ∀ k, s.status ≠ .faulted k

/-- A safe run: it ends in a safe state, with a program that never raises a fault. -/
def SafeRun (s : State) : Prop := ∃ t, run s = .next t ∧ t.Safe

/-- The states differ at most in memory: what no instruction can tell apart (R51). -/
def State.SameButMemory (s t : State) : Prop := { s with mem := t.mem } = t

end Sys2Proof.Machine
end

