-- ==== Sys2Proof/Certificates/Slice0/Obligations.lean ====
section
/-! DEFINITION. The statements for the provers. Each docstring names what of spec/ it formalises; a clause that rests on a
decision of 92_eei_decisions.md or on a resolution of 90_conflicts.md says so and names the log entry. -/

namespace Sys2Proof.Claims

open Sys2Proof Sys2Proof.Machine

/-- A binary instruction (R144): it completes on every stack of two or more Words, replacing `a` and `b` by the Word whose
value `f a b` gives and changing nothing else (no flag exists, R30); on a smaller stack it enters StackUnderflow with stack
and memory unchanged (R142). -/
def BinaryRule (i : Instr) (f : Nat → Nat → Nat) : Prop :=
  (∀ (s : State) (a b : Word) (rest : List Word), s.stack = a :: b :: rest →
    exec i s = .next { s with stack := BitVec.ofNat 256 (f a.toNat b.toNat) :: rest }) ∧
  (∀ s : State, s.stack.length < 2 →
    ∃ t, exec i s = .next t ∧ t.status = .faulted .stackUnderflow ∧ t.stack = s.stack ∧ t.mem = s.mem)

/-- The format O encoding of an instruction (R71): one byte, the opcode, under every `OPCODE_MAP`. -/
def OneByte (i : Instr) (op : Byte) : Prop := ∀ m : OpcodeMap, encode m i = [op]

/-- The format O encoding of an instruction whose byte is a parameter: `op` picks it from the `OPCODE_MAP`, and `dflt` is
its default (R75, D1; log 7). -/
def OneMappedByte (i : Instr) (op : OpcodeMap → Byte) (dflt : Byte) : Prop :=
  (∀ m : OpcodeMap, encode m i = [op m]) ∧ op OpcodeMap.default = dflt

/-- PUSHN (R106) with N fixed: its encoding; its effect when the stack has room, all else unchanged; StackOverflow when
`depth = STACK_CAP`; the step that fetches its opcode at any pc of the code pushes `ReadImm(pc, N)` of the bytes after the
opcode; and the range of the value. The overflow clause is decision D3 (log 11) and, where it reads pc, decision D5 (log 10);
that the instruction carries the immediate is log 12. -/
def PushRule (n : Nat) (push : Word → Instr) (op : Byte) : Prop :=
  (∀ (m : OpcodeMap) (v : Word), ∃ imm : List Byte, encode m (push v) = op :: imm ∧ imm.length = n) ∧
  (∀ (s : State) (v : Word), s.cfg.stackCap ≠ some s.stack.length →
    exec (push v) s = .next { s with stack := v :: s.stack, pc := s.pc + n }) ∧
  (∀ (s : State) (v : Word), s.cfg.stackCap = some s.stack.length →
    ∃ t, exec (push v) s = .next t ∧ t.status = .faulted .stackOverflow ∧ t.stack = s.stack ∧ t.pc = s.pc ∧
      t.mem = s.mem) ∧
  (∀ s : State, s.status = .running → s.code[s.pc]? = some op →
    step s = exec (push (readImm s.code (s.pc + 1) n)) { s with pc := s.pc + 1 }) ∧
  (∀ (code : List Byte) (p : Nat), (readImm code p n).toNat < 2 ^ (8 * n))

/-- The store at offset `a` stays within MEM_CAP, computed exactly (R204). -/
def FitsMemCap (s : State) (a : Word) : Prop := ∀ c, s.cfg.memCap = some c → a.toNat + 32 ≤ c

/-- The 206 byte values that R77 lists as unrecognized with the default values. -/
def ListedUnrecognized (n : Nat) : Prop :=
  n = 0x00 ∨ n = 0x05 ∨ (0x07 ≤ n ∧ n ≤ 0x0f) ∨ n = 0x12 ∨ n = 0x13 ∨ n = 0x15 ∨ n = 0x1a ∨ (0x1d ≤ n ∧ n ≤ 0x4f) ∨
    n = 0x51 ∨ (0x54 ≤ n ∧ n ≤ 0x5e) ∨ (0x80 ≤ n ∧ n ≤ 0xff)

/-- The length R72 gives from the opcode byte alone. -/
def lengthOfOpcode (op : Byte) : Nat :=
  if 0x60 ≤ op.toNat ∧ op.toNat ≤ 0x7f then 1 + (op.toNat - 0x60 + 1) else 1

end Sys2Proof.Claims

open Sys2Proof Sys2Proof.Machine Sys2Proof.Claims

/-- For every configuration and every code: the constructed core has that code, pc 0, an empty stack, empty memory
(msize 0, nothing listed) and status Running; State.reset is the construction in the default configuration with empty
code. Status Running is decision D7; the empty code of State.reset is the model's choice (log 2). Rests on 10_state.md
section 8, 92_eei_decisions.md D7, notes/assumptions/2.md. -/
def Obligations.ConstructedCoreHasResetValues : Prop :=
  ∀ (cfg : Config) (code : List Byte),
    ((State.construct cfg code).code = code ∧ (State.construct cfg code).pc = 0 ∧ (State.construct cfg code).stack = [] ∧
      (State.construct cfg code).mem.msize = 0 ∧ (State.construct cfg code).mem.cells = [] ∧
      (State.construct cfg code).status = .running ∧ (State.construct cfg code).cfg = cfg) ∧
    State.reset = State.construct Config.default []

/-- For every configuration and every code, the constructed core meets State.Inv (canonical memory, pc <= len(code) +
32, depth within STACK_CAP, msize within MEM_CAP, a fitting status), and so does State.reset. Rests on 10_state.md
section 8. -/
def Obligations.ConstructedCoreMeetsTheInvariant : Prop :=
  (∀ (cfg : Config) (code : List Byte), (State.construct cfg code).Inv) ∧ State.reset.Inv

/-- For every state that meets State.Inv, a step that answers a next state leaves one that meets State.Inv: memory
stays canonical, pc stays at most len(code) + 32, depth stays within STACK_CAP and memory within MEM_CAP, Halted is
only at the end of the code, and Faulted(k) only with a kind that the configuration has and pc one past a code address
(pc after a fault is decision D5, log 10). Rests on 10_state.md sections 3 to 6, 60_exceptions.md sections 1 and 2,
20_memory.md section 2. -/
def Obligations.EveryStepKeepsTheInvariant : Prop :=
  ∀ s t : State, s.Inv → step s = .next t → t.Inv

/-- While status is Running: at pc >= len(code) the step sets status Halted and changes nothing else; at pc <
len(code) it runs, on the state with pc + 1, the handler of the instruction that the bytes at pc decode to; bytes that
decode to none are an unrecognized opcode byte code[pc], and the step then changes nothing but pc (+1) under policy
Nop and enters InvalidOpcode under Fault. The effect of an unrecognized byte under each policy is R139 and R202, under
decision D2; that the decoder rejects such a byte as DecodeError.unrecognized is the model's choice (log 14, DESIGN
CHOICE), and so is that it reads the immediate of a PUSHN (log 12, DESIGN CHOICE). Rests on R100, R101, R102, R139,
R202, 92_eei_decisions.md D2, notes/assumptions/12.md, notes/assumptions/14.md. -/
def Obligations.StepHaltsOrRunsOneInstruction : Prop :=
  ∀ s : State, s.status = .running →
    (s.code.length ≤ s.pc → step s = .next { s with status := .halted }) ∧
    (s.pc < s.code.length →
      (∀ i : Instr, decode s.cfg.opcodes (s.code.drop s.pc) = .ok i → step s = exec i { s with pc := s.pc + 1 }) ∧
      (∀ e : DecodeError, decode s.cfg.opcodes (s.code.drop s.pc) = .error e →
        (∃ op, e = .unrecognized op ∧ s.code[s.pc]? = some op) ∧
        (s.cfg.invalidOpcode = .nop → step s = .next { s with pc := s.pc + 1 }) ∧
        (s.cfg.invalidOpcode = .fault → ∃ t, step s = .next t ∧ t.status = .faulted .invalidOpcode)))

/-- While Running with code[pc] = op and a well-formed OPCODE_MAP: op = 0x5f + N with N = 1 to 32 runs the PUSH with N
immediate bytes and the value ReadImm(pc + 1, N); the opcode byte of any instruction without an immediate (0x5f for
PUSH0) runs that instruction; any byte not recognized is skipped under Nop and raises InvalidOpcode under Fault. The
effect of an unrecognized byte under each policy is R139 and R202, under decision D2; that the decoder reads the
immediate of a PUSHN, where R106 has the handler read it, is the model's choice (log 12, DESIGN CHOICE). Rests on
R103, R106, R139, R202, 92_eei_decisions.md D2, notes/assumptions/12.md. -/
def Obligations.OpcodeByteSelectsTheHandler : Prop :=
  ∀ (s : State) (op : Byte), s.status = .running → s.code[s.pc]? = some op → s.cfg.opcodes.wellFormed = true →
    (∀ n, 1 ≤ n → n ≤ 32 → op.toNat = 0x5f + n →
      ∃ i : Instr, i.isPush = true ∧ i.immBytes = n ∧ i.imm = readImm s.code (s.pc + 1) n ∧
        step s = exec i { s with pc := s.pc + 1 }) ∧
    (op = 0x5f → step s = exec .push0 { s with pc := s.pc + 1 }) ∧
    (∀ i : Instr, i.immBytes = 0 → op = opcode s.cfg.opcodes i → step s = exec i { s with pc := s.pc + 1 }) ∧
    (s.cfg.opcodes.recognizes op = false →
      (s.cfg.invalidOpcode = .nop → step s = .next { s with pc := s.pc + 1 }) ∧
      (s.cfg.invalidOpcode = .fault → ∃ t, step s = .next t ∧ t.status = .faulted .invalidOpcode))

/-- In every state whose status is not Running, a step and run() leave the state as it is. That the final states are
kept is decision D5; that step then answers the same state is the model's choice (log 3). Rests on 60_exceptions.md
section 2, 92_eei_decisions.md D5, notes/assumptions/3.md. -/
def Obligations.FinalStatusIsKept : Prop :=
  ∀ s : State, s.status ≠ .running → step s = .next s ∧ run s = .next s

/-- While Running with the default OPCODE_MAP and code[pc] = op: if op is one of the listed 206 values, the step
changes nothing but pc (+1) under Nop, and raises InvalidOpcode with stack and memory unchanged under Fault; if op is
any other value, the step runs the instruction decoded at pc. Which bytes are listed rests on the eleven default
opcode values of decision D1 (log 7, PRESUMED); the policy is decision D2. Rests on 30_encoding.md section 4,
92_eei_decisions.md D1, 92_eei_decisions.md D2, notes/assumptions/7.md. -/
def Obligations.DefaultUnrecognizedBytesAreTheListed206 : Prop :=
  ∀ (s : State) (op : Byte), s.status = .running → s.code[s.pc]? = some op → s.cfg.opcodes = OpcodeMap.default →
    (ListedUnrecognized op.toNat → s.cfg.invalidOpcode = .nop → step s = .next { s with pc := s.pc + 1 }) ∧
    (ListedUnrecognized op.toNat → s.cfg.invalidOpcode = .fault →
      ∃ t, step s = .next t ∧ t.status = .faulted .invalidOpcode ∧ t.stack = s.stack ∧ t.mem = s.mem) ∧
    (¬ ListedUnrecognized op.toNat →
      ∃ i : Instr, decode s.cfg.opcodes (s.code.drop s.pc) = .ok i ∧ step s = exec i { s with pc := s.pc + 1 })

/-- While Running, a step that ends in status Faulted(k) leaves exactly the state it began with, except pc, which is
one more, and status. That pc is the opcode address + 1 is decision D5 (log 10). Rests on 60_exceptions.md section 2,
90_conflicts.md C3, 92_eei_decisions.md D5. -/
def Obligations.FaultEntryChangesOnlyPcAndStatus : Prop :=
  ∀ (s t : State) (k : FaultKind), s.status = .running → step s = .next t → t.status = .faulted k →
    t = { s with pc := s.pc + 1, status := .faulted k }

/-- From a Running state every instruction answers a next state whose status is Faulted(StackUnderflow) exactly when
depth is less than its pops, Faulted(StackOverflow) exactly when it is PUSH0 or a PUSHN and depth = STACK_CAP,
Faulted(MemoryLimit) exactly when it is a store with two operands and offset + 32 > MEM_CAP, and never
Faulted(InvalidOpcode). StackOverflow and its equality test are decision D3 (log 11), MemoryLimit is decision D4 (log
13), the priority is decision D10. Rests on 60_exceptions.md section 1, 92_eei_decisions.md D3, 92_eei_decisions.md
D4, 92_eei_decisions.md D10. -/
def Obligations.InstructionsFaultExactlyAsTabulated : Prop :=
  ∀ (i : Instr) (s : State), s.status = .running →
    ∃ t, exec i s = .next t ∧
      (t.status = .faulted .stackUnderflow ↔ s.stack.length < i.pops) ∧
      (t.status = .faulted .stackOverflow ↔ i.isPush = true ∧ s.cfg.stackCap = some s.stack.length) ∧
      (t.status = .faulted .memoryLimit ↔
        i.isStore = true ∧ ∃ a b rest c, s.stack = a :: b :: rest ∧ s.cfg.memCap = some c ∧ c < a.toNat + 32) ∧
      t.status ≠ .faulted .invalidOpcode

/-- An instruction with fewer Words on the stack than it requires answers a next state with status
Faulted(StackUnderflow), the stack, memory and code unchanged; from a Running state with enough Words it never ends in
that status; ADD, MUL, SUB, DIV, MOD, LT, GT, EQ, AND, OR, XOR, SHL, SHR, MSTORE and MSTORE8 require 2, NOT and POP 1,
PUSH0 and every PUSHN 0; a step over an unrecognized byte never ends in it. That memory too is as before is R206 and
the resolution C3; that the decoder rejects an unrecognized byte as a DecodeError is the model's choice (log 14,
DESIGN CHOICE). Rests on R142, R201, R206, 90_conflicts.md C3, notes/assumptions/14.md. -/
def Obligations.StackUnderflowIsRaisedAtomically : Prop :=
  (∀ (i : Instr) (s : State), s.stack.length < i.pops →
      ∃ t, exec i s = .next t ∧ t.status = .faulted .stackUnderflow ∧ t.stack = s.stack ∧ t.mem = s.mem ∧
        t.code = s.code) ∧
    (∀ (i : Instr) (s t : State), s.status = .running → i.pops ≤ s.stack.length → exec i s = .next t →
      t.status ≠ .faulted .stackUnderflow) ∧
    (∀ i ∈ [Instr.add, .mul, .sub, .div, .mod, .lt, .gt, .eq, .and, .or, .xor, .shl, .shr, .mstore, .mstore8], i.pops = 2) ∧
    Instr.not.pops = 1 ∧ Instr.pop.pops = 1 ∧ (∀ i : Instr, i.isPush = true → i.pops = 0) ∧
    (∀ (s t : State) (e : DecodeError), s.status = .running → decode s.cfg.opcodes (s.code.drop s.pc) = .error e →
      step s = .next t → t.status ≠ .faulted .stackUnderflow)

/-- While Running with STACK_CAP and MEM_CAP infinite and policy Nop, a step that ends in status Faulted(k) has k =
StackUnderflow and ran an instruction that pops more Words than the stack holds. Rests on 60_exceptions.md section 1,
00_scope.md section 4. -/
def Obligations.ReferenceConfigurationFaultsOnlyOnUnderflow : Prop :=
  ∀ (s t : State) (k : FaultKind), s.status = .running → s.cfg.stackCap = none → s.cfg.memCap = none →
    s.cfg.invalidOpcode = .nop → step s = .next t → t.status = .faulted k →
    k = .stackUnderflow ∧ ∃ i : Instr, decode s.cfg.opcodes (s.code.drop s.pc) = .ok i ∧ s.stack.length < i.pops

/-- PUSH0 is the one byte 0x5f; unless depth = STACK_CAP it completes with 0 pushed and everything else unchanged (pc
as after the fetch); with depth = STACK_CAP it ends in Faulted(StackOverflow) with the stack unchanged. STACK_CAP,
StackOverflow and the test by equality are decision D3 (log 11, DEDUCED). Rests on 40_fetch_dispatch.md section 3,
92_eei_decisions.md D3, notes/assumptions/11.md. -/
def Obligations.Push0PushesZero : Prop :=
  OneByte .push0 0x5f ∧
    (∀ s : State, s.cfg.stackCap ≠ some s.stack.length → exec .push0 s = .next { s with stack := 0 :: s.stack }) ∧
    (∀ s : State, s.cfg.stackCap = some s.stack.length →
      ∃ t, exec .push0 s = .next t ∧ t.status = .faulted .stackOverflow ∧ t.stack = s.stack ∧ t.mem = s.mem)

/-- Rules R106 and R107 to R114. For N = 1 to 8: PUSHN is the opcode byte 0x5f + N and N immediate bytes; unless depth
= STACK_CAP it completes with its value pushed, pc + N and everything else unchanged; with depth = STACK_CAP it ends
in Faulted(StackOverflow), nothing pushed, pc not advanced further; a step that finds the opcode at pc runs it with
the value ReadImm(pc + 1, N), bytes past the code reading as 0; that value is below 2^(8N). STACK_CAP, StackOverflow
and the test by equality are decision D3 (log 11, DEDUCED); pc after that fault is decision D5 (log 10, DEDUCED); that
the decoder reads the immediate and the instruction carries it is the model's choice (log 12). Rests on
40_fetch_dispatch.md section 4, 92_eei_decisions.md D3, 92_eei_decisions.md D5, notes/assumptions/10.md,
notes/assumptions/11.md, notes/assumptions/12.md. -/
def Obligations.Push1To8PushTheirImmediates : Prop :=
  PushRule 1 .push1 0x60 ∧
    PushRule 2 .push2 0x61 ∧
    PushRule 3 .push3 0x62 ∧
    PushRule 4 .push4 0x63 ∧
    PushRule 5 .push5 0x64 ∧
    PushRule 6 .push6 0x65 ∧
    PushRule 7 .push7 0x66 ∧
    PushRule 8 .push8 0x67

/-- Rules R106 and R115 to R122. For N = 9 to 16: PUSHN is the opcode byte 0x5f + N and N immediate bytes; unless
depth = STACK_CAP it completes with its value pushed, pc + N and everything else unchanged; with depth = STACK_CAP it
ends in Faulted(StackOverflow), nothing pushed, pc not advanced further; a step that finds the opcode at pc runs it
with the value ReadImm(pc + 1, N), bytes past the code reading as 0; that value is below 2^(8N). STACK_CAP,
StackOverflow and the test by equality are decision D3 (log 11, DEDUCED); pc after that fault is decision D5 (log 10,
DEDUCED); that the decoder reads the immediate and the instruction carries it is the model's choice (log 12). Rests on
40_fetch_dispatch.md section 4, 92_eei_decisions.md D3, 92_eei_decisions.md D5, notes/assumptions/10.md,
notes/assumptions/11.md, notes/assumptions/12.md. -/
def Obligations.Push9To16PushTheirImmediates : Prop :=
  PushRule 9 .push9 0x68 ∧
    PushRule 10 .push10 0x69 ∧
    PushRule 11 .push11 0x6a ∧
    PushRule 12 .push12 0x6b ∧
    PushRule 13 .push13 0x6c ∧
    PushRule 14 .push14 0x6d ∧
    PushRule 15 .push15 0x6e ∧
    PushRule 16 .push16 0x6f

/-- Rules R106 and R123 to R130. For N = 17 to 24: PUSHN is the opcode byte 0x5f + N and N immediate bytes; unless
depth = STACK_CAP it completes with its value pushed, pc + N and everything else unchanged; with depth = STACK_CAP it
ends in Faulted(StackOverflow), nothing pushed, pc not advanced further; a step that finds the opcode at pc runs it
with the value ReadImm(pc + 1, N), bytes past the code reading as 0; that value is below 2^(8N). STACK_CAP,
StackOverflow and the test by equality are decision D3 (log 11, DEDUCED); pc after that fault is decision D5 (log 10,
DEDUCED); that the decoder reads the immediate and the instruction carries it is the model's choice (log 12). Rests on
40_fetch_dispatch.md section 4, 92_eei_decisions.md D3, 92_eei_decisions.md D5, notes/assumptions/10.md,
notes/assumptions/11.md, notes/assumptions/12.md. -/
def Obligations.Push17To24PushTheirImmediates : Prop :=
  PushRule 17 .push17 0x70 ∧
    PushRule 18 .push18 0x71 ∧
    PushRule 19 .push19 0x72 ∧
    PushRule 20 .push20 0x73 ∧
    PushRule 21 .push21 0x74 ∧
    PushRule 22 .push22 0x75 ∧
    PushRule 23 .push23 0x76 ∧
    PushRule 24 .push24 0x77

/-- Rules R106 and R131 to R138. For N = 25 to 32: PUSHN is the opcode byte 0x5f + N and N immediate bytes; unless
depth = STACK_CAP it completes with its value pushed, pc + N and everything else unchanged; with depth = STACK_CAP it
ends in Faulted(StackOverflow), nothing pushed, pc not advanced further; a step that finds the opcode at pc runs it
with the value ReadImm(pc + 1, N), bytes past the code reading as 0; that value is below 2^(8N). STACK_CAP,
StackOverflow and the test by equality are decision D3 (log 11, DEDUCED); pc after that fault is decision D5 (log 10,
DEDUCED); that the decoder reads the immediate and the instruction carries it is the model's choice (log 12). Rests on
40_fetch_dispatch.md section 4, 92_eei_decisions.md D3, 92_eei_decisions.md D5, notes/assumptions/10.md,
notes/assumptions/11.md, notes/assumptions/12.md. -/
def Obligations.Push25To32PushTheirImmediates : Prop :=
  PushRule 25 .push25 0x78 ∧
    PushRule 26 .push26 0x79 ∧
    PushRule 27 .push27 0x7a ∧
    PushRule 28 .push28 0x7b ∧
    PushRule 29 .push29 0x7c ∧
    PushRule 30 .push30 0x7d ∧
    PushRule 31 .push31 0x7e ∧
    PushRule 32 .push32 0x7f

/-- For N = 1 to 32: byte k of the N bytes at p (k from 1) supplies bits [8(N-k)+7 : 8(N-k)] of ReadImm(p, N), a byte
at an address >= len(code) supplying 0; and ReadImm(p, N) is below 2^(8N). Formalises R73. -/
def Obligations.ImmediateIsBigEndianAndZeroPadded : Prop :=
  ∀ (code : List Byte) (p n : Nat), 1 ≤ n → n ≤ 32 →
    (readImm code p n).toNat < 2 ^ (8 * n) ∧
    ∀ k, 1 ≤ k → k ≤ n →
      (p + (k - 1) < code.length →
        code[p + (k - 1)]? = some ((readImm code p n).extractLsb' (8 * (n - k)) 8)) ∧
      (code.length ≤ p + (k - 1) → (readImm code p n).extractLsb' (8 * (n - k)) 8 = 0)

/-- ADD is one byte, 0x01; on every stack a, b, ... of two or more Words it completes with a and b replaced by (a + b)
mod 2^256 and everything else unchanged; on a smaller stack it ends in Faulted(StackUnderflow) with stack and memory
unchanged. Formalises R150. -/
def Obligations.AddPushesSum : Prop :=
  OneByte .add 0x01 ∧ BinaryRule .add (fun a b => (a + b) % 2 ^ 256)

/-- SUB is one byte, 0x03; on every stack a, b, ... of two or more Words it completes with a and b replaced by b - a
when b >= a and 2^256 + b - a when b < a and everything else unchanged; on a smaller stack it ends in
Faulted(StackUnderflow) with stack and memory unchanged. Formalises R152. -/
def Obligations.SubPushesSecondMinusFirst : Prop :=
  OneByte .sub 0x03 ∧ BinaryRule .sub (fun a b => if a ≤ b then b - a else 2 ^ 256 + b - a)

/-- DIV is one byte, 0x04; on every stack a, b, ... of two or more Words it completes with a and b replaced by floor(b
/ a), or 0 when a = 0 and everything else unchanged; on a smaller stack it ends in Faulted(StackUnderflow) with stack
and memory unchanged. Formalises R153. -/
def Obligations.DivPushesFloorOfSecondByFirst : Prop :=
  OneByte .div 0x04 ∧ BinaryRule .div (fun a b => if a = 0 then 0 else b / a)

/-- MUL is one byte, 0x02 in the default OPCODE_MAP (decision D1, log 7); on every stack a, b, ... of two or more
Words it completes with a and b replaced by (a * b) mod 2^256 and everything else unchanged; on a smaller stack it
ends in Faulted(StackUnderflow) with stack and memory unchanged. Rests on 42_arith.md section 2, 30_encoding.md
section 3, 92_eei_decisions.md D1. -/
def Obligations.MulPushesProduct : Prop :=
  OneMappedByte .mul (·.mul) 0x02 ∧ BinaryRule .mul (fun a b => (a * b) % 2 ^ 256)

/-- MOD is one byte, 0x06 in the default OPCODE_MAP (decision D1, log 7); on every stack a, b, ... of two or more
Words it completes with a and b replaced by b mod a, or 0 when a = 0 and everything else unchanged; on a smaller stack
it ends in Faulted(StackUnderflow) with stack and memory unchanged. Rests on 42_arith.md section 3, 30_encoding.md
section 3, 92_eei_decisions.md D1. -/
def Obligations.ModPushesRemainderOfSecondByFirst : Prop :=
  OneMappedByte .mod (·.mod) 0x06 ∧ BinaryRule .mod (fun a b => if a = 0 then 0 else b % a)

/-- LT is one byte, 0x10 in the default OPCODE_MAP (decision D1, log 7); on every stack a, b, ... of two or more Words
it completes with a and b replaced by 1 if a < b and 0 otherwise and everything else unchanged; on a smaller stack it
ends in Faulted(StackUnderflow) with stack and memory unchanged. Rests on 43_compare.md, 30_encoding.md section 3,
92_eei_decisions.md D1, 90_conflicts.md C6. -/
def Obligations.LtPushesFirstBelowSecond : Prop :=
  OneMappedByte .lt (·.lt) 0x10 ∧ BinaryRule .lt (fun a b => if a < b then 1 else 0)

/-- GT is one byte, 0x11 in the default OPCODE_MAP (decision D1, log 7); on every stack a, b, ... of two or more Words
it completes with a and b replaced by 1 if a > b and 0 otherwise and everything else unchanged; on a smaller stack it
ends in Faulted(StackUnderflow) with stack and memory unchanged. Rests on 43_compare.md, 30_encoding.md section 3,
92_eei_decisions.md D1, 90_conflicts.md C6. -/
def Obligations.GtPushesFirstAboveSecond : Prop :=
  OneMappedByte .gt (·.gt) 0x11 ∧ BinaryRule .gt (fun a b => if a > b then 1 else 0)

/-- EQ is one byte, 0x14 in the default OPCODE_MAP (decision D1, log 7); on every stack a, b, ... of two or more Words
it completes with a and b replaced by 1 if a = b and 0 otherwise and everything else unchanged; on a smaller stack it
ends in Faulted(StackUnderflow) with stack and memory unchanged. Rests on 43_compare.md, 30_encoding.md section 3,
92_eei_decisions.md D1. -/
def Obligations.EqPushesEquality : Prop :=
  OneMappedByte .eq (·.eq) 0x14 ∧ BinaryRule .eq (fun a b => if a = b then 1 else 0)

/-- AND is one byte, 0x16 in the default OPCODE_MAP (decision D1, log 7); on every stack a, b, ... of two or more
Words it completes with a and b replaced by b & a, bit k of which is b[k] AND a[k] and everything else unchanged; on a
smaller stack it ends in Faulted(StackUnderflow) with stack and memory unchanged. Rests on 44_logic.md, 30_encoding.md
section 3, 92_eei_decisions.md D1. -/
def Obligations.AndPushesBitwiseAnd : Prop :=
  OneMappedByte .and (·.and) 0x16 ∧ BinaryRule .and (fun a b => b &&& a) ∧
    (∀ (a b : Word) (k : Nat), k < 256 →
      (BitVec.ofNat 256 (b.toNat &&& a.toNat)).getLsbD k = (b.getLsbD k && a.getLsbD k))

/-- OR is one byte, 0x17 in the default OPCODE_MAP (decision D1, log 7); on every stack a, b, ... of two or more Words
it completes with a and b replaced by b | a, bit k of which is b[k] OR a[k] and everything else unchanged; on a
smaller stack it ends in Faulted(StackUnderflow) with stack and memory unchanged. Rests on 44_logic.md, 30_encoding.md
section 3, 92_eei_decisions.md D1. -/
def Obligations.OrPushesBitwiseOr : Prop :=
  OneMappedByte .or (·.or) 0x17 ∧ BinaryRule .or (fun a b => b ||| a) ∧
    (∀ (a b : Word) (k : Nat), k < 256 →
      (BitVec.ofNat 256 (b.toNat ||| a.toNat)).getLsbD k = (b.getLsbD k || a.getLsbD k))

/-- XOR is one byte, 0x18 in the default OPCODE_MAP (decision D1, log 7); on every stack a, b, ... of two or more
Words it completes with a and b replaced by b ^ a, bit k of which is b[k] XOR a[k] and everything else unchanged; on a
smaller stack it ends in Faulted(StackUnderflow) with stack and memory unchanged. Rests on 44_logic.md, 30_encoding.md
section 3, 92_eei_decisions.md D1. -/
def Obligations.XorPushesBitwiseXor : Prop :=
  OneMappedByte .xor (·.xor) 0x18 ∧ BinaryRule .xor (fun a b => b ^^^ a) ∧
    (∀ (a b : Word) (k : Nat), k < 256 →
      (BitVec.ofNat 256 (b.toNat ^^^ a.toNat)).getLsbD k = (b.getLsbD k ^^ a.getLsbD k))

/-- SHL is one byte, 0x1b in the default OPCODE_MAP (decision D1, log 7); on every stack a, b, ... of two or more
Words it completes with a and b replaced by (b << a) mod 2^256, or 0 when a >= 256 (operand roles by C1, log 9) and
everything else unchanged; on a smaller stack it ends in Faulted(StackUnderflow) with stack and memory unchanged.
Rests on 45_shift.md, 30_encoding.md section 3, 92_eei_decisions.md D1, 90_conflicts.md C1. -/
def Obligations.ShlShiftsSecondLeftByFirst : Prop :=
  OneMappedByte .shl (·.shl) 0x1b ∧ BinaryRule .shl (fun a b => if 256 ≤ a then 0 else (b * 2 ^ a) % 2 ^ 256)

/-- SHR is one byte, 0x1c in the default OPCODE_MAP (decision D1, log 7); on every stack a, b, ... of two or more
Words it completes with a and b replaced by b >> a, or 0 when a >= 256 (operand roles by C1, log 9) and everything
else unchanged; on a smaller stack it ends in Faulted(StackUnderflow) with stack and memory unchanged. Rests on
45_shift.md, 30_encoding.md section 3, 92_eei_decisions.md D1, 90_conflicts.md C1. -/
def Obligations.ShrShiftsSecondRightByFirst : Prop :=
  OneMappedByte .shr (·.shr) 0x1c ∧ BinaryRule .shr (fun a b => if 256 ≤ a then 0 else b / 2 ^ a)

/-- On every stack a, b, ...: for a >= 256, up to 2^256 - 1, SHL and SHR complete with 0 in place of the operands; for
a = 0 with b; for a < 256 with b shifted by exactly a places; nothing else changes. That the first-popped a is the
amount and b the value is the resolution C1 (log 9, DEDUCED). Rests on 45_shift.md, 90_conflicts.md C1,
notes/assumptions/9.md. -/
def Obligations.ShiftAmountIsTheWholeWord : Prop :=
  ∀ (s : State) (a b : Word) (rest : List Word), s.stack = a :: b :: rest →
    (256 ≤ a.toNat → exec .shl s = .next { s with stack := 0 :: rest } ∧ exec .shr s = .next { s with stack := 0 :: rest }) ∧
    (a = 0 → exec .shl s = .next { s with stack := b :: rest } ∧ exec .shr s = .next { s with stack := b :: rest }) ∧
    (a.toNat < 256 →
      exec .shl s = .next { s with stack := BitVec.ofNat 256 (b.toNat * 2 ^ a.toNat) :: rest } ∧
      exec .shr s = .next { s with stack := BitVec.ofNat 256 (b.toNat / 2 ^ a.toNat) :: rest })

/-- NOT is the one byte 0x19; on every stack a, ... it completes with a replaced by 2^256 - 1 - a, bit k of which is
NOT a[k], and everything else unchanged; on an empty stack it ends in Faulted(StackUnderflow) with the stack empty and
memory unchanged. Formalises R173. -/
def Obligations.NotPushesComplement : Prop :=
  OneByte .not 0x19 ∧
    (∀ (s : State) (a : Word) (rest : List Word), s.stack = a :: rest →
      exec .not s = .next { s with stack := BitVec.ofNat 256 (2 ^ 256 - 1 - a.toNat) :: rest }) ∧
    (∀ (a : Word) (k : Nat), k < 256 → (BitVec.ofNat 256 (2 ^ 256 - 1 - a.toNat)).getLsbD k = !a.getLsbD k) ∧
    (∀ s : State, s.stack = [] →
      ∃ t, exec .not s = .next t ∧ t.status = .faulted .stackUnderflow ∧ t.stack = [] ∧ t.mem = s.mem)

/-- POP is the one byte 0x50; on every stack a, ... it completes with a removed and everything else unchanged; on an
empty stack it ends in Faulted(StackUnderflow) with the stack empty and memory unchanged. Formalises R147. -/
def Obligations.PopDiscardsTop : Prop :=
  OneByte .pop 0x50 ∧
    (∀ (s : State) (a : Word) (rest : List Word), s.stack = a :: rest → exec .pop s = .next { s with stack := rest }) ∧
    (∀ s : State, s.stack = [] →
      ∃ t, exec .pop s = .next t ∧ t.status = .faulted .stackUnderflow ∧ t.stack = [] ∧ t.mem = s.mem)

/-- On every stack a, b, ... with a + 32 within MEM_CAP: MSTORE completes, pops both, leaves pc, code, configuration
and status, byte a + i reads as b[8(31-i)+7 : 8(31-i)] for i = 0 to 31, and every other existing byte reads as before;
MSTORE8 the same, with byte a reading as b[7:0] and every other existing byte as before. That a store completes at
every Word offset within MEM_CAP, with a + 32 computed exactly and never wrapping below the offset, is decision D4
(log 13, DEDUCED). Rests on R43, R190, R191, 92_eei_decisions.md D4, notes/assumptions/13.md. -/
def Obligations.StoresWriteTheirBytes : Prop :=
  ∀ (s : State) (a b : Word) (rest : List Word), s.stack = a :: b :: rest → FitsMemCap s a →
    (∃ t, exec .mstore s = .next t ∧ t.stack = rest ∧ t.pc = s.pc ∧ t.code = s.code ∧ t.cfg = s.cfg ∧ t.status = s.status ∧
      (∀ i < 32, t.mem.byte? (a.toNat + i) = some (b.extractLsb' (8 * (31 - i)) 8)) ∧
      (∀ x < s.mem.msize, x < a.toNat ∨ a.toNat + 32 ≤ x → t.mem.byte? x = s.mem.byte? x)) ∧
    (∃ t, exec .mstore8 s = .next t ∧ t.stack = rest ∧ t.pc = s.pc ∧ t.code = s.code ∧ t.cfg = s.cfg ∧ t.status = s.status ∧
      t.mem.byte? a.toNat = some (b.extractLsb' 0 8) ∧
      (∀ x < s.mem.msize, x ≠ a.toNat → t.mem.byte? x = s.mem.byte? x))

/-- With canonical memory, on every stack a, b, ... with a + 32 within MEM_CAP: MSTORE and MSTORE8 complete with msize
= max(old msize, a + 32), computed without wrapping; every byte that growth created and the store did not write reads
0; no byte exists at or above the new msize. That MSTORE8 grows to a + 32 is C5; that a + 32 does not wrap is decision
D4 (log 13). Rests on 20_memory.md section 2, 46_memory_ops.md, 90_conflicts.md C5, 92_eei_decisions.md D4. -/
def Obligations.StoresGrowMemoryToOffsetPlus32 : Prop :=
  ∀ (s : State) (a b : Word) (rest : List Word), s.stack = a :: b :: rest → s.mem.wf = true → FitsMemCap s a →
    (∃ t, exec .mstore s = .next t ∧ t.mem.msize = max s.mem.msize (a.toNat + 32) ∧
      (∀ x, s.mem.msize ≤ x → x < a.toNat → t.mem.byte? x = some 0) ∧ (∀ x, t.mem.msize ≤ x → t.mem.byte? x = none)) ∧
    (∃ t, exec .mstore8 s = .next t ∧ t.mem.msize = max s.mem.msize (a.toNat + 32) ∧
      (∀ x, s.mem.msize ≤ x → x < a.toNat + 32 → x ≠ a.toNat → t.mem.byte? x = some 0) ∧
      (∀ x, t.mem.msize ≤ x → t.mem.byte? x = none))

/-- MSTORE is the one byte 0x52, MSTORE8 one byte of the OPCODE_MAP, 0x53 by default (decision D1, log 7); on every
stack a, b, ... with MEM_CAP = c and a + 32 > c each ends in Faulted(MemoryLimit) with stack and memory unchanged
(decision D4, log 13). Rests on 46_memory_ops.md, 92_eei_decisions.md D1, 92_eei_decisions.md D4. -/
def Obligations.StoresEncodeAndStopAtTheirLimits : Prop :=
  OneByte .mstore 0x52 ∧ OneMappedByte .mstore8 (·.mstore8) 0x53 ∧
    ∀ i ∈ [Instr.mstore, .mstore8], ∀ (c : Nat) (s : State) (a b : Word) (rest : List Word), s.stack = a :: b :: rest →
      s.cfg.memCap = some c → c < a.toNat + 32 →
      ∃ t, exec i s = .next t ∧ t.status = .faulted .memoryLimit ∧ t.stack = s.stack ∧ t.mem = s.mem ∧ t.code = s.code

/-- A constructed core has empty memory; the memory snapshot shows all msize bytes; no step shrinks msize; a store
that completes from canonical memory leaves msize = max(old, offset + 32) with every byte it created and did not write
reading 0; every other instruction leaves memory unchanged; a step that changes memory decoded MSTORE or MSTORE8; and
from two states that differ only in memory, an instruction leaves states that differ only in memory. That MSTORE8 too
grows memory to offset + 32 is the resolution C5; that offset + 32 is exact and never wraps is decision D4 (log 13,
DEDUCED). Rests on 10_state.md section 5, 20_memory.md section 2, 90_conflicts.md C5, 92_eei_decisions.md D4,
notes/assumptions/13.md. -/
def Obligations.MemoryIsEmptyAtFirstGrowsOnlyAndIsWrittenOnlyByStores : Prop :=
  (∀ (cfg : Config) (code : List Byte), (State.construct cfg code).mem.msize = 0) ∧
    (∀ s : State, s.memorySnapshot.length = s.mem.msize) ∧
    (∀ s t : State, step s = .next t → s.mem.msize ≤ t.mem.msize) ∧
    (∀ (s t : State) (i : Instr) (a b : Word) (rest : List Word), s.mem.wf = true → s.status = .running →
      s.stack = a :: b :: rest → i = .mstore ∨ i = .mstore8 → exec i s = .next t → t.status = .running →
      t.mem.msize = max s.mem.msize (a.toNat + 32) ∧
      ∀ x, s.mem.msize ≤ x → x < t.mem.msize → (i = .mstore → x < a.toNat ∨ a.toNat + 32 ≤ x) →
        (i = .mstore8 → x ≠ a.toNat) → t.mem.byte? x = some 0) ∧
    (∀ (i : Instr) (s t : State), i ≠ .mstore → i ≠ .mstore8 → exec i s = .next t → t.mem = s.mem) ∧
    (∀ s t : State, step s = .next t → t.mem ≠ s.mem →
      decode s.cfg.opcodes (s.code.drop s.pc) = .ok .mstore ∨ decode s.cfg.opcodes (s.code.drop s.pc) = .ok .mstore8) ∧
    (∀ (i : Instr) (s s' t t' : State), s.SameButMemory s' → exec i s = .next t → exec i s' = .next t' → t.SameButMemory t')

/-- A constructed core holds the given code; no step changes it; and no handler reads it: with another code buffer in
place, an instruction gives the same next state with that buffer (the step reads the code only to fetch and decode).
For PUSH1 to PUSH32 that rests on the model's choice to read the immediate at decode, where the spec has the handler
read it (log 12, DESIGN CHOICE). Rests on 10_state.md section 2, 40_fetch_dispatch.md section 4,
notes/assumptions/12.md. -/
def Obligations.CodeIsSetOnceAndOnlyFetched : Prop :=
  (∀ (cfg : Config) (code : List Byte), (State.construct cfg code).code = code) ∧
    (∀ s t : State, step s = .next t → t.code = s.code) ∧
    (∀ (i : Instr) (s t : State) (c : List Byte), exec i s = .next t → exec i { s with code := c } = .next { t with code := c })

/-- A step leaves the parameters of the core as they are. That the state carries them is the model's choice (log 1).
Rests on 00_scope.md section 4, 10_state.md section 7, notes/assumptions/1.md. -/
def Obligations.StepKeepsConfiguration : Prop :=
  ∀ s t : State, step s = .next t → t.cfg = s.cfg

/-- While Running with code[pc] = op: a step that stays Running leaves pc = pc + length, where the length is 1 + (op -
0x60 + 1) for op from 0x60 to 0x7f and 1 for every other byte, and the instruction decoded there has that length; at
pc >= len(code) the step halts with pc unchanged. Rests on R24, R72, R101. -/
def Obligations.PcAdvancesByTheInstructionLength : Prop :=
  (∀ (s t : State) (op : Byte), s.status = .running → s.code[s.pc]? = some op → step s = .next t → t.status = .running →
      t.pc = s.pc + lengthOfOpcode op) ∧
    (∀ (s : State) (op : Byte) (i : Instr), s.code[s.pc]? = some op → decode s.cfg.opcodes (s.code.drop s.pc) = .ok i →
      i.length = lengthOfOpcode op) ∧
    (∀ s : State, s.status = .running → s.code.length ≤ s.pc →
      ∃ t, step s = .next t ∧ t.status = .halted ∧ t.pc = s.pc)

/-- From a Running state, an instruction that stays Running found at least its pops on the stack, leaves depth - pops
+ pushes Words, and the Words below its operands are unchanged and in order. Rests on 41_stack.md section 2,
30_encoding.md section 3. -/
def Obligations.StackEffectMatchesTheTable : Prop :=
  ∀ (i : Instr) (s t : State), s.status = .running → exec i s = .next t → t.status = .running →
    i.pops ≤ s.stack.length ∧ t.stack.length + i.pops = s.stack.length + i.pushes ∧
    t.stack.drop i.pushes = s.stack.drop i.pops

/-- An instruction with enough operands, whose stack is not full with or without more Words under it, does the same
with any further Words under the stack, and leaves those in place. Formalises R27. -/
def Obligations.HandlersTouchOnlyTheTopOfTheStack : Prop :=
  ∀ (i : Instr) (s t : State) (below : List Word), i.pops ≤ s.stack.length → s.cfg.stackCap ≠ some s.stack.length →
    s.cfg.stackCap ≠ some (s.stack.length + below.length) → exec i s = .next t →
    exec i { s with stack := s.stack ++ below } = .next { t with stack := t.stack ++ below }

/-- From every state run() answers a next state t that is Halted or Faulted and is what some number k of plain steps
gives, every state before it being Running; t has an observation, whose status is that of t. Formalises R233. -/
def Obligations.RunStepsUntilTheFirstFinalState : Prop :=
  ∀ s : State, ∃ (k : Nat) (t : State), run s = .next t ∧ t.status ≠ .running ∧ Host.Core.run Sys2Proof.core k s = .next t ∧
    (∀ j < k, ∃ u : State, Host.Core.run Sys2Proof.core j s = .next u ∧ u.status = .running) ∧
    t.observation = some (t.status, t.stackSnapshot, t.memorySnapshot)

/-- From every state, len(code) - pc + 1 or fewer plain steps reach a state that is not Running; a run from
construction takes at most len(code) + 1 steps. Rests on 70_reset_and_hazards.md section 3. -/
def Obligations.RunEndsWithinTheCodeLength : Prop :=
  (∀ s : State, ∃ k ≤ s.code.length - s.pc + 1, ∃ t : State, Host.Core.run Sys2Proof.core k s = .next t ∧ t.status ≠ .running) ∧
    (∀ (cfg : Config) (code : List Byte), ∃ k ≤ code.length + 1, ∃ t : State,
      Host.Core.run Sys2Proof.core k (State.construct cfg code) = .next t ∧ t.status ≠ .running)

/-- From two states that differ only in memory, a step, and a whole run, leave states that differ only in memory: the
code, pc, stack and status never depend on what memory holds or how long it is. Rests on 20_memory.md section 8,
90_conflicts.md C4. -/
def Obligations.MemoryContentsNeverInfluenceARun : Prop :=
  (∀ s s' t t' : State, s.SameButMemory s' → step s = .next t → step s' = .next t' → t.SameButMemory t') ∧
    (∀ s s' t t' : State, s.SameButMemory s' → run s = .next t → run s' = .next t' → t.SameButMemory t')

/-- For every well-formed OPCODE_MAP, every well-formed instruction with its immediate at every value it admits, and
any bytes after it: decode of the encoding is the instruction. Rests on 30_encoding.md sections 1 to 4. -/
def Obligations.DecodeInvertsEncode : Prop :=
  ∀ (m : OpcodeMap) (i : Instr) (tail : List Byte), m.wellFormed = true → i.wellFormed = true →
    decode m (encode m i ++ tail) = .ok i

/-- For every OPCODE_MAP and byte sequence: if decode gives an instruction, the sequence is not empty, the instruction
is well formed, and each byte of its encoding is the byte read, with 0 for a byte past the end. Rests on
30_encoding.md sections 1 to 4. -/
def Obligations.EncodeInvertsDecode : Prop :=
  ∀ (m : OpcodeMap) (bytes : List Byte) (i : Instr), decode m bytes = .ok i →
    bytes ≠ [] ∧ i.wellFormed = true ∧ ∀ k < i.length, (encode m i)[k]? = some (bytes[k]?.getD 0)

/-- Bytes written out from the scenarios: 01 is ADD, 03 SUB, 04 DIV, 19 NOT, 50 POP, 52 MSTORE, 5f PUSH0, 60 02 is
PUSH1 2, 61 12 34 is PUSH2 0x1234, 61 12 at the end of the code is PUSH2 0x1200, and 00 is unrecognized. Rests on
30_encoding.md section 3, 95_test_vectors.md sections 1 and 2.7. -/
def Obligations.SpecWordsDecodeToTheirInstructions : Prop :=
  decode OpcodeMap.default [0x01] = .ok .add ∧ decode OpcodeMap.default [0x03] = .ok .sub ∧
    decode OpcodeMap.default [0x04] = .ok .div ∧ decode OpcodeMap.default [0x19] = .ok .not ∧
    decode OpcodeMap.default [0x50] = .ok .pop ∧ decode OpcodeMap.default [0x52] = .ok .mstore ∧
    decode OpcodeMap.default [0x5f] = .ok .push0 ∧ decode OpcodeMap.default [0x60, 0x02] = .ok (.push1 2) ∧
    decode OpcodeMap.default [0x61, 0x12, 0x34] = .ok (.push2 0x1234) ∧
    decode OpcodeMap.default [0x61, 0x12] = .ok (.push2 0x1200) ∧
    decode OpcodeMap.default [0x00] = .error (.unrecognized 0x00)

/-- On every stack a, b, ...: DIV and MOD complete with q and r in place of the operands; for a other than 0, b = a *
q + r without wrap and r < a; for a = 0, q = r = 0. Rests on 42_arith.md section 4. -/
def Obligations.DivAndModRecombineExactly : Prop :=
  ∀ (s : State) (a b : Word) (rest : List Word), s.stack = a :: b :: rest →
    ∃ (t u : State) (q r : Word), exec .div s = .next t ∧ exec .mod s = .next u ∧ t.stack = q :: rest ∧ u.stack = r :: rest ∧
      (a ≠ 0 → b.toNat = a.toNat * q.toNat + r.toNat ∧ r.toNat < a.toNat) ∧ (a = 0 → q = 0 ∧ r = 0)

/-- On every stack a, b, ...: LT, GT and EQ complete with Words x, y and z, each 0 or 1, exactly one of them 1. Rests
on 43_compare.md. -/
def Obligations.ExactlyOneComparisonHolds : Prop :=
  ∀ (s : State) (a b : Word) (rest : List Word), s.stack = a :: b :: rest →
    ∃ (t u v : State) (x y z : Word), exec .lt s = .next t ∧ exec .gt s = .next u ∧ exec .eq s = .next v ∧
      t.stack = x :: rest ∧ u.stack = y :: rest ∧ v.stack = z :: rest ∧
      ((x = 1 ∧ y = 0 ∧ z = 0) ∨ (x = 0 ∧ y = 1 ∧ z = 0) ∨ (x = 0 ∧ y = 0 ∧ z = 1))

/-- From canonical memory, after MSTORE or MSTORE8 answered a next state, the same store with the same stack again
leaves memory exactly as it was after the first. Rests on 20_memory.md section 5, 95_test_vectors.md section 1. -/
def Obligations.StoresAreIdempotent : Prop :=
  ∀ i ∈ [Instr.mstore, .mstore8], ∀ s t u : State, s.mem.wf = true → exec i s = .next t →
    exec i { t with stack := s.stack } = .next u → u.mem = t.mem

/-- After MSTORE of b at a, MSTORE8 of c at a + j with j < 32 leaves byte a + j equal to c[7:0] and every other byte
of the stored Word as MSTORE wrote it: j = 31 replaces the least significant byte, j = 0 the most significant. That a
store completes at every Word offset within MEM_CAP, with a + 32 computed exactly and never wrapping below the offset,
is decision D4 (log 13, DEDUCED). Rests on 20_memory.md section 3, 92_eei_decisions.md D4, notes/assumptions/13.md. -/
def Obligations.Mstore8ReplacesOneByteOfAStoredWord : Prop :=
  ∀ (s t u : State) (a b o c : Word) (rest rest' : List Word) (j : Nat), s.stack = a :: b :: rest → FitsMemCap s a →
    j < 32 → o.toNat = a.toNat + j → FitsMemCap s o → exec .mstore s = .next t →
    exec .mstore8 { t with stack := o :: c :: rest' } = .next u →
    u.mem.byte? (a.toNat + j) = some (c.extractLsb' 0 8) ∧
    ∀ i < 32, i ≠ j → u.mem.byte? (a.toNat + i) = some (b.extractLsb' (8 * (31 - i)) 8)

/-- On every stack a, b, ...: SUB completes, and after pushing a again ADD completes with b in place of the operands.
Rests on 95_test_vectors.md section 1, 90_conflicts.md C2. -/
def Obligations.SubThenAddRestoresTheMinuend : Prop :=
  ∀ (s : State) (a b : Word) (rest : List Word), s.stack = a :: b :: rest →
    ∃ t u : State, exec .sub s = .next t ∧ exec .add { t with stack := a :: t.stack } = .next u ∧ u.stack = b :: rest

/-- MemRead(addr, n) with addr + n <= msize is the n bytes from addr on, and is undefined past msize (decision D7);
the memory snapshot is MemRead(0, msize); element k of the stack snapshot is the Word k places above the bottom
(decision D6); a Running core has no observation. Rests on 20_memory.md section 8, 70_reset_and_hazards.md section 2,
92_eei_decisions.md D6, 92_eei_decisions.md D7. -/
def Obligations.HostReadsExistingBytesAndWholeSnapshots : Prop :=
  (∀ (m : Memory) (addr n : Nat),
      (addr + n ≤ m.msize → ∃ l, m.read? addr n = some l ∧ l.length = n ∧ ∀ i < n, l[i]? = m.byte? (addr + i)) ∧
      (m.msize < addr + n → m.read? addr n = none)) ∧
    (∀ s : State, s.mem.read? 0 s.mem.msize = some s.memorySnapshot ∧ s.stackSnapshot.length = s.stack.length ∧
      (∀ k < s.stack.length, s.stackSnapshot[k]? = s.stack[s.stack.length - 1 - k]?) ∧
      (s.status = .running → s.observation = none))
end

