-- ==== Sys2Proof/Laws/Decode.lean ====
section
/-! SUPPORT. `ReadImm`, the immediate field and the encoder. -/

namespace Sys2Proof

theorem byteOrZero_drop (bytes : List Byte) (d i : Nat) : byteOrZero (bytes.drop d) i = byteOrZero bytes (d + i) := by
  simp [byteOrZero]

theorem byteOrZero_of_ge (bytes : List Byte) (i : Nat) (h : bytes.length ≤ i) : byteOrZero bytes i = 0 := by
  simp [byteOrZero, h]

theorem byteOrZero_append_left (l r : List Byte) (i : Nat) (h : i < l.length) : byteOrZero (l ++ r) i = byteOrZero l i := by
  simp [byteOrZero, List.getElem?_append_left h]

theorem readImmValue_drop (bytes : List Byte) (d p n : Nat) :
    readImmValue (bytes.drop d) p n = readImmValue bytes (d + p) n := by
  induction n with
  | zero => rfl
  | succ n ih => simp [readImmValue, ih, byteOrZero_drop, Nat.add_assoc]

/-- Reading the immediate after the opcode at `d` from the bytes at `d` is reading it from the whole code (R106). -/
theorem readImm_drop (bytes : List Byte) (d p n : Nat) : readImm (bytes.drop d) p n = readImm bytes (d + p) n := by
  simp [readImm, readImmValue_drop]

/-- The value read depends only on the bytes it reads. -/
theorem readImmValue_congr (x y : List Byte) (p q n : Nat) (h : ∀ i < n, byteOrZero x (p + i) = byteOrZero y (q + i)) :
    readImmValue x p n = readImmValue y q n := by
  induction n with
  | zero => rfl
  | succ n ih => simp [readImmValue, ih fun i hi => h i (by omega), h n (by omega)]

/-- "It is always below `2^(8N)`" (R73). -/
theorem readImmValue_lt (bytes : List Byte) (p n : Nat) : readImmValue bytes p n < 2 ^ (8 * n) := by
  induction n with
  | zero => simp [readImmValue]
  | succ n ih =>
    have hb := (byteOrZero bytes (p + n)).isLt
    have : 2 ^ (8 * (n + 1)) = 2 ^ (8 * n) * 256 := by rw [Nat.mul_add, pow_add]; norm_num
    simp only [readImmValue]
    omega

/-- "so no truncation happens" (R73). -/
theorem toNat_readImm (bytes : List Byte) (p n : Nat) (h : n ≤ 32) :
    (readImm bytes p n).toNat = readImmValue bytes p n := by
  have h1 := readImmValue_lt bytes p n
  have h2 : 2 ^ (8 * n) ≤ 2 ^ 256 := Nat.pow_le_pow_right (by norm_num) (by omega)
  rw [readImm, BitVec.toNat_ofNat, Nat.mod_eq_of_lt (lt_of_lt_of_le h1 h2)]

@[simp] theorem length_immBytesOf (v : Word) (n : Nat) : (immBytesOf v n).length = n := by
  induction n with
  | zero => rfl
  | succ n ih => simp [immBytesOf, ih]

/-- Byte `k` of the immediate field (R71), counting from 0. -/
theorem byteOrZero_immBytesOf (v : Word) (n k : Nat) (h : k < n) :
    byteOrZero (immBytesOf v n) k = v.extractLsb' (8 * (n - 1 - k)) 8 := by
  induction n generalizing k with
  | zero => omega
  | succ n ih =>
    cases k with
    | zero => rfl
    | succ k =>
      have : n - (k + 1) = n - 1 - k := by omega
      simpa [byteOrZero, immBytesOf, this] using ih k (by omega)

/-- Reading back the immediate field gives the value modulo `2^(8N)`. -/
theorem readImmValue_immBytesOf (v : Word) (n : Nat) (tail : List Byte) (pre : Byte) :
    readImmValue (pre :: immBytesOf v n ++ tail) 1 n = v.toNat % 2 ^ (8 * n) := by
  have key : ∀ m k, m + k = n → readImmValue (pre :: immBytesOf v n ++ tail) 1 m = v.toNat / 2 ^ (8 * k) % 2 ^ (8 * m) := by
    intro m
    induction m with
    | zero => intro k _; simp [readImmValue, Nat.mod_one]
    | succ m ih =>
      intro k hk
      have hb : byteOrZero (pre :: immBytesOf v n ++ tail) (1 + m) = v.extractLsb' (8 * k) 8 := by
        rw [byteOrZero_append_left _ _ _ (by simp; omega)]
        have := byteOrZero_immBytesOf v n m (by omega)
        rw [show n - 1 - m = k by omega] at this
        rw [← this, Nat.add_comm]; rfl
      rw [readImmValue, ih (k + 1) (by omega), hb, BitVec.extractLsb'_toNat, Nat.shiftRight_eq_div_pow]
      have e1 : 2 ^ (8 * (k + 1)) = 2 ^ (8 * k) * 2 ^ 8 := by rw [Nat.mul_add, pow_add]
      have e2 : 2 ^ (8 * (m + 1)) = 2 ^ 8 * 2 ^ (8 * m) := by rw [Nat.mul_add, pow_add, Nat.mul_comm]
      rw [e1, ← Nat.div_div_eq_div_mul, e2, Nat.mod_mul]
      norm_num
      omega
  simpa using key n 0 (by omega)

/-- An instruction's encoding is as long as R72 says. -/
theorem length_encode (m : OpcodeMap) (i : Instr) : (encode m i).length = i.length := by
  simp [encode, Instr.length, Nat.add_comm]

@[simp] theorem length_tableBytes (nbits w : Nat) : (tableBytes nbits w).length = 33 := by simp [tableBytes, longestInstr]

/-- There are no instructions with more than 32 immediate bytes (R72). -/
theorem immBytes_le (i : Instr) : i.immBytes ≤ 32 := by cases i <;> simp [Instr.immBytes]

/-- PUSHN exists for exactly N = 1 to 32 (R75), and is the instruction with N immediate bytes. -/
theorem pushInstr_eq_some (n : Nat) (v : Word) (h1 : 1 ≤ n) (h2 : n ≤ 32) :
    ∃ i, pushInstr n v = some i ∧ i.immBytes = n ∧ i.imm = v ∧ i.isPush = true := by
  interval_cases n <;> exact ⟨_, rfl, rfl, rfl, rfl⟩

/-- Byte `n - 1 - j` of an immediate is digit `j` of its value in base 256 (R71, R73). -/
theorem readImmValue_byte (code : List Byte) (p n j : Nat) (h : j < n) :
    readImmValue code p n / 2 ^ (8 * j) % 256 = (byteOrZero code (p + (n - 1 - j))).toNat := by
  induction n generalizing j with
  | zero => omega
  | succ n ih =>
    have hb := (byteOrZero code (p + n)).isLt
    cases j with
    | zero => simp [readImmValue]; omega
    | succ j =>
      have := ih j (by omega)
      rw [show n + 1 - 1 - (j + 1) = n - 1 - j by omega, ← this, readImmValue, Nat.mul_add, pow_add,
        Nat.mul_comm (2 ^ (8 * j)), ← Nat.div_div_eq_div_mul]
      congr 2
      norm_num
      omega

/-! ## The decoder at one opcode byte -/

/-- The bytes from an address that holds `op` begin with `op`. -/
theorem drop_eq_cons {l : List Byte} {n : Nat} {op : Byte} (h : l[n]? = some op) : ∃ tl, l.drop n = op :: tl := by
  obtain ⟨hn, h⟩ := List.getElem?_eq_some_iff.1 h
  exact ⟨l.drop (n + 1), by rw [List.drop_eq_getElem_cons hn, h]⟩

theorem lt_length_of_getElem? {l : List Byte} {n : Nat} {op : Byte} (h : l[n]? = some op) : n < l.length :=
  (List.getElem?_eq_some_iff.1 h).1

/-- The decoder rejects a byte sequence only by its first byte (R77). -/
theorem decode_error_cases {m : OpcodeMap} {bytes : List Byte} {e : DecodeError} (h : decode m bytes = .error e)
    (hne : bytes ≠ []) : ∃ op tl, bytes = op :: tl ∧ e = .unrecognized op ∧ decodeOpcode m op bytes = none := by
  match bytes with
  | [] => exact absurd rfl hne
  | op :: tl =>
    refine ⟨op, tl, rfl, ?_⟩
    simp only [decode] at h
    split at h
    · simp at h
    · simp_all

/-- A byte 0x5f + N decodes to PUSHN with the immediate after it, wherever it stands in the code (R103, R106). -/
theorem decode_pushByte (m : OpcodeMap) {code : List Byte} {pc n : Nat} {op : Byte} {i : Instr}
    (hop : op.toNat = 0x5f + n) (h1 : 1 ≤ n) (h2 : n ≤ 32) (h : code[pc]? = some op)
    (hi : pushInstr n (readImm code (pc + 1) n) = some i) : decode m (code.drop pc) = .ok i := by
  obtain ⟨tl, ht⟩ := drop_eq_cons h
  have hp : isPushByte op = true := by simp [isPushByte]; omega
  have hn : op.toNat - 0x5f = n := by omega
  rw [← readImm_drop, ht] at hi
  rw [ht]
  simp [decode, decodeOpcode, hp, hn, hi]

theorem lookup_of_mem {op : Byte} {i : Instr} : ∀ {t : List (Byte × Instr)}, (t.map Prod.fst).Nodup → (op, i) ∈ t →
    t.lookup op = some i
  | (x, j) :: t, hn, hm => by
    simp only [List.map_cons, List.nodup_cons] at hn
    rcases List.mem_cons.1 hm with h | h
    · cases h; simp [List.lookup]
    · have hx : op ≠ x := fun he => hn.1 (by subst he; exact List.mem_map_of_mem (f := Prod.fst) h)
      rw [List.lookup, show (op == x) = false by simpa using hx]
      exact lookup_of_mem hn.2 h

theorem mem_of_lookup {op : Byte} {i : Instr} : ∀ {t : List (Byte × Instr)}, t.lookup op = some i → (op, i) ∈ t
  | [], h => by simp at h
  | (x, j) :: t, h => by
    rw [List.lookup] at h
    split at h
    · rename_i he
      cases h
      have : op = x := by simpa using he
      subst this
      simp
    · exact List.mem_cons_of_mem _ (mem_of_lookup h)

/-- Under a well-formed map, the opcode byte of an instruction without an immediate decodes to it (R75, R78). -/
theorem decode_opcode (m : OpcodeMap) (h : m.wellFormed = true) (i : Instr) (hi : i.immBytes = 0) (tl : List Byte) :
    decode m (opcode m i :: tl) = .ok i := by
  simp only [OpcodeMap.wellFormed, Bool.and_eq_true, decide_eq_true_eq, List.all_eq_true, Bool.not_eq_true'] at h
  have hk : isPushByte (opcode m i) = false := by
    cases i <;> first
      | (simp [Instr.immBytes] at hi; done)
      | rfl
      | (apply h.2; simp [OpcodeMap.bytes, opcode])
  have hm : (opcode m i, i) ∈ opcodeTable m := by
    cases i <;> first
      | (simp [Instr.immBytes] at hi; done)
      | simp [opcodeTable, opcode]
  have hn : ((opcodeTable m).map Prod.fst).Nodup := h.1
  simp [decode, decodeOpcode, hk, lookup_of_mem hn hm]

/-- A byte that the map does not recognize is rejected (R77). -/
theorem decode_of_not_recognizes (m : OpcodeMap) (op : Byte) (tl : List Byte) (h : m.recognizes op = false) :
    decode m (op :: tl) = .error (.unrecognized op) := by
  simp only [OpcodeMap.recognizes, Bool.or_eq_false_iff] at h
  obtain ⟨⟨h1, h2⟩, h3⟩ := h
  have : (opcodeTable m).lookup op = none := by
    rw [List.lookup_eq_none_iff]
    simp [fixedOpcodes, OpcodeMap.bytes] at h2 h3
    simp [opcodeTable, h2, h3]
  simp [decode, decodeOpcode, h1, this]

end Sys2Proof
end

