-- ==== Sys2Proof/Laws/State.lean ====
section
/-! SUPPORT. One lemma per field for each named update of the state, true by `rfl`. -/

namespace Sys2Proof.Machine

variable (s : State) (cfg : Config) (code : List Byte) (m : Memory) (n a : Nat) (v : Word)

@[simp] theorem construct_cfg : (State.construct cfg code).cfg = cfg := rfl
@[simp] theorem construct_code : (State.construct cfg code).code = code := rfl
@[simp] theorem construct_pc : (State.construct cfg code).pc = 0 := rfl
@[simp] theorem construct_stack : (State.construct cfg code).stack = [] := rfl
@[simp] theorem construct_mem : (State.construct cfg code).mem = Memory.empty := rfl
@[simp] theorem construct_status : (State.construct cfg code).status = .running := rfl

@[simp] theorem halt_cfg : (halt s).cfg = s.cfg := rfl
@[simp] theorem halt_code : (halt s).code = s.code := rfl
@[simp] theorem halt_pc : (halt s).pc = s.pc := rfl
@[simp] theorem halt_stack : (halt s).stack = s.stack := rfl
@[simp] theorem halt_mem : (halt s).mem = s.mem := rfl
@[simp] theorem halt_status : (halt s).status = .halted := rfl

@[simp] theorem fetchNext_cfg : (fetchNext s).cfg = s.cfg := rfl
@[simp] theorem fetchNext_code : (fetchNext s).code = s.code := rfl
@[simp] theorem fetchNext_pc : (fetchNext s).pc = s.pc + 1 := rfl
@[simp] theorem fetchNext_stack : (fetchNext s).stack = s.stack := rfl
@[simp] theorem fetchNext_mem : (fetchNext s).mem = s.mem := rfl
@[simp] theorem fetchNext_status : (fetchNext s).status = s.status := rfl

@[simp] theorem withFetchWord_cfg (nbits w : Nat) : (s.withFetchWord nbits w).cfg = s.cfg := rfl
@[simp] theorem withFetchWord_code (nbits w : Nat) :
    (s.withFetchWord nbits w).code = placeBytes s.code s.pc (tableBytes nbits w) := rfl
@[simp] theorem withFetchWord_pc (nbits w : Nat) : (s.withFetchWord nbits w).pc = s.pc := rfl
@[simp] theorem withFetchWord_stack (nbits w : Nat) : (s.withFetchWord nbits w).stack = s.stack := rfl
@[simp] theorem withFetchWord_mem (nbits w : Nat) : (s.withFetchWord nbits w).mem = s.mem := rfl
@[simp] theorem withFetchWord_status (nbits w : Nat) : (s.withFetchWord nbits w).status = .running := rfl

@[simp] theorem grow_cells : (m.grow n).cells = m.cells := rfl
@[simp] theorem grow_msize : (m.grow n).msize = max m.msize n := rfl
@[simp] theorem write32_msize : (m.write32 a v).msize = m.msize := rfl
@[simp] theorem write32_cells : (m.write32 a v).cells = putCells a (wordBytes v) m.cells := rfl
@[simp] theorem write8_msize : (m.write8 a v).msize = m.msize := rfl
@[simp] theorem write8_cells : (m.write8 a v).cells = putCell a (v.extractLsb' 0 8) m.cells := rfl

end Sys2Proof.Machine
end

