-- ==== Sys2Proof/Laws/Memory.lean ====
section
/-! SUPPORT. Memory: read after write, the canonical form kept by every operation, and that canonical memories with the
same bytes are equal. -/

namespace Sys2Proof.Machine

/-! ## Read after write -/

theorem cellAt_eraseCell (a x : Nat) (c : List Host.Cell) :
    cellAt (eraseCell a c) x = if x = a then 0 else cellAt c x := by
  induction c with
  | nil => simp [eraseCell, cellAt]
  | cons p rest ih =>
    obtain ⟨y, v⟩ := p
    by_cases hy : y = a
    · by_cases hx : x = a
      · subst hx; simpa [eraseCell, hy] using ih
      · have : ¬ a = x := fun h => hx h.symm
        simp [eraseCell, cellAt, hy, ih, hx, this]
    · by_cases hyx : y = x
      · subst hyx; simp [eraseCell, cellAt, hy]
      · simp [eraseCell, cellAt, hy, hyx, ih]

/-- The cells hold nothing at an address that was erased. -/
theorem cellAt_insertCell (a x : Nat) (b : Byte) (c : List Host.Cell) (h : ∀ p ∈ c, p.1 ≠ a) :
    cellAt (insertCell a b c) x = if x = a then b else cellAt c x := by
  induction c with
  | nil => simp [insertCell, cellAt, eq_comm]
  | cons p rest ih =>
    obtain ⟨y, v⟩ := p
    have hy : y ≠ a := h (y, v) (by simp)
    have ih := ih fun p hp => h p (by simp [hp])
    by_cases hlt : a < y
    · simp [insertCell, cellAt, hlt, eq_comm (a := a)]
    · by_cases hyx : y = x
      · subst hyx; simp [insertCell, cellAt, hlt, hy]
      · simp [insertCell, cellAt, hlt, hyx, ih]

theorem mem_eraseCell_ne (a : Nat) (c : List Host.Cell) : ∀ p ∈ eraseCell a c, p.1 ≠ a := by
  induction c with
  | nil => simp [eraseCell]
  | cons p rest ih =>
    obtain ⟨y, v⟩ := p
    by_cases hy : y = a
    · simpa [eraseCell, hy] using ih
    · intro q hq
      rcases (by simpa [eraseCell, hy] using hq : q = (y, v) ∨ q ∈ eraseCell a rest) with rfl | hq
      · exact hy
      · exact ih q hq

/-- A byte reads as written; every other byte is unchanged. -/
theorem cellAt_putCell (a x : Nat) (b : Byte) (c : List Host.Cell) :
    cellAt (putCell a b c) x = if x = a then b else cellAt c x := by
  unfold putCell
  split
  · simp [cellAt_eraseCell, *]
  · rw [cellAt_insertCell a x b _ (mem_eraseCell_ne a c), cellAt_eraseCell]
    split <;> rfl

/-- A run of bytes reads as written; every byte outside the run is unchanged. -/
theorem cellAt_putCells (bytes : List Byte) (a x : Nat) (c : List Host.Cell) :
    cellAt (putCells a bytes c) x =
      if a ≤ x ∧ x < a + bytes.length then byteOrZero bytes (x - a) else cellAt c x := by
  induction bytes generalizing a c with
  | nil =>
    rw [if_neg (by simp)]; rfl
  | cons b rest ih =>
    rw [putCells, ih, cellAt_putCell]
    simp only [List.length_cons]
    by_cases hx : x = a
    · subst hx
      rw [if_neg (by omega), if_pos rfl, if_pos (by omega)]
      simp [byteOrZero]
    · by_cases hr : a + 1 ≤ x ∧ x < a + 1 + rest.length
      · have h2 : a ≤ x ∧ x < a + (rest.length + 1) := by omega
        have h3 : x - a = (x - (a + 1)) + 1 := by omega
        simp [hr, h2, byteOrZero, h3]
      · rw [if_neg hr, if_neg hx, if_neg (by omega)]

/-- A run of bytes, read back byte by byte. -/
theorem byteOrZero_wordBytes (v : Word) (i : Nat) (h : i < 32) : byteOrZero (wordBytes v) i = wordByte v i := by
  simp [byteOrZero, wordBytes, h]

@[simp] theorem length_wordBytes (v : Word) : (wordBytes v).length = 32 := by simp [wordBytes]

theorem cellAt_write32 (m : Memory) (a x : Nat) (v : Word) :
    cellAt (m.write32 a v).cells x = if a ≤ x ∧ x < a + 32 then wordByte v (x - a) else cellAt m.cells x := by
  rw [write32_cells, cellAt_putCells, length_wordBytes]
  split
  · rw [byteOrZero_wordBytes v _ (by omega)]
  · rfl

theorem cellAt_write8 (m : Memory) (a x : Nat) (v : Word) :
    cellAt (m.write8 a v).cells x = if x = a then v.extractLsb' 0 8 else cellAt m.cells x := by
  rw [write8_cells, cellAt_putCell]

/-- What the model's read of one byte gives after a 32-byte write. -/
theorem Memory.byte?_write32 (m : Memory) (a x : Nat) (v : Word) :
    (m.write32 a v).byte? x =
      if x < m.msize then some (if a ≤ x ∧ x < a + 32 then wordByte v (x - a) else cellAt m.cells x) else none := by
  rw [← cellAt_write32]; rfl

/-- What the model's read of one byte gives after a 1-byte write. -/
theorem Memory.byte?_write8 (m : Memory) (a x : Nat) (v : Word) :
    (m.write8 a v).byte? x =
      if x < m.msize then some (if x = a then v.extractLsb' 0 8 else cellAt m.cells x) else none := by
  rw [← cellAt_write8]; rfl

/-! ## The canonical form -/

theorem cellsWf_cons (lo hi x : Nat) (v : Byte) (c : List Host.Cell) :
    cellsWf lo hi ((x, v) :: c) = true ↔ lo ≤ x ∧ x < hi ∧ v ≠ 0 ∧ cellsWf (x + 1) hi c = true := by
  simp [cellsWf, and_assoc]

theorem cellsWf_mono (c : List Host.Cell) {lo lo' hi hi' : Nat} (hlo : lo' ≤ lo) (hhi : hi ≤ hi')
    (h : cellsWf lo hi c = true) : cellsWf lo' hi' c = true := by
  induction c generalizing lo lo' with
  | nil => rfl
  | cons p rest ih =>
    obtain ⟨x, v⟩ := p
    obtain ⟨h1, h2, h3, h4⟩ := (cellsWf_cons ..).1 h
    exact (cellsWf_cons ..).2 ⟨by omega, by omega, h3, ih (le_refl _) h4⟩

theorem cellsWf_eraseCell (a : Nat) (c : List Host.Cell) {lo hi : Nat} (h : cellsWf lo hi c = true) :
    cellsWf lo hi (eraseCell a c) = true := by
  induction c generalizing lo with
  | nil => rfl
  | cons p rest ih =>
    obtain ⟨x, v⟩ := p
    obtain ⟨h1, h2, h3, h4⟩ := (cellsWf_cons ..).1 h
    by_cases hx : x = a
    · simpa [eraseCell, hx] using cellsWf_mono _ (by omega) (le_refl _) (ih h4)
    · simpa [eraseCell, hx] using (cellsWf_cons ..).2 ⟨h1, h2, h3, ih h4⟩

theorem cellsWf_insertCell (a : Nat) (b : Byte) (c : List Host.Cell) {lo hi : Nat} (hb : b ≠ 0) (hlo : lo ≤ a)
    (hhi : a < hi) (hne : ∀ p ∈ c, p.1 ≠ a) (h : cellsWf lo hi c = true) :
    cellsWf lo hi (insertCell a b c) = true := by
  induction c generalizing lo with
  | nil => exact (cellsWf_cons ..).2 ⟨hlo, hhi, hb, rfl⟩
  | cons p rest ih =>
    obtain ⟨x, v⟩ := p
    obtain ⟨h1, h2, h3, h4⟩ := (cellsWf_cons ..).1 h
    have hx : x ≠ a := hne (x, v) (by simp)
    by_cases hlt : a < x
    · simpa [insertCell, hlt] using
        (cellsWf_cons ..).2 ⟨hlo, hhi, hb, (cellsWf_cons ..).2 ⟨by omega, h2, h3, h4⟩⟩
    · simpa [insertCell, hlt] using
        (cellsWf_cons ..).2 ⟨h1, h2, h3, ih (by omega) (fun p hp => hne p (by simp [hp])) h4⟩

theorem cellsWf_putCell (a : Nat) (b : Byte) (c : List Host.Cell) {hi : Nat} (hhi : a < hi)
    (h : cellsWf 0 hi c = true) : cellsWf 0 hi (putCell a b c) = true := by
  unfold putCell
  split
  · exact cellsWf_eraseCell a c h
  · exact cellsWf_insertCell a b _ ‹_› (Nat.zero_le _) hhi (mem_eraseCell_ne a c) (cellsWf_eraseCell a c h)

theorem cellsWf_putCells (bytes : List Byte) (a : Nat) (c : List Host.Cell) {hi : Nat} (hhi : a + bytes.length ≤ hi)
    (h : cellsWf 0 hi c = true) : cellsWf 0 hi (putCells a bytes c) = true := by
  induction bytes generalizing a c with
  | nil => exact h
  | cons b rest ih =>
    simp only [List.length_cons] at hhi
    exact ih (a + 1) _ (by omega) (cellsWf_putCell a b c (by omega) h)

theorem Memory.wf_empty : Memory.empty.wf = true := rfl

theorem reset_mem_wf : State.reset.mem.wf = true := rfl

theorem Memory.wf_grow (m : Memory) (n : Nat) (h : m.wf = true) : (m.grow n).wf = true :=
  cellsWf_mono _ (le_refl _) (le_max_left _ _) h

theorem Memory.wf_write32 (m : Memory) (a : Nat) (v : Word) (ha : a + 32 ≤ m.msize) (h : m.wf = true) :
    (m.write32 a v).wf = true :=
  cellsWf_putCells _ a _ (by simpa using ha) h

theorem Memory.wf_write8 (m : Memory) (a : Nat) (v : Word) (ha : a < m.msize) (h : m.wf = true) :
    (m.write8 a v).wf = true :=
  cellsWf_putCell a _ _ ha h

/-- Nothing is listed outside the range of the canonical form. -/
theorem cellAt_of_out_of_range (c : List Host.Cell) {lo hi x : Nat} (h : cellsWf lo hi c = true)
    (hx : x < lo ∨ hi ≤ x) : cellAt c x = 0 := by
  induction c generalizing lo with
  | nil => rfl
  | cons p rest ih =>
    obtain ⟨y, v⟩ := p
    obtain ⟨h1, h2, -, h4⟩ := (cellsWf_cons ..).1 h
    have hy : y ≠ x := by omega
    simpa [cellAt, hy] using ih h4 (by omega)

/-- A byte that growth created reads as 0 (R42). -/
theorem Memory.cellAt_of_msize_le (m : Memory) {x : Nat} (h : m.wf = true) (hx : m.msize ≤ x) : cellAt m.cells x = 0 :=
  cellAt_of_out_of_range _ h (Or.inr hx)

/-- Canonical cells with the same bytes are the same list. -/
theorem cells_ext (c d : List Host.Cell) {lo hi hi' : Nat} (hc : cellsWf lo hi c = true) (hd : cellsWf lo hi' d = true)
    (h : ∀ x, cellAt c x = cellAt d x) : c = d := by
  induction c generalizing d lo with
  | nil =>
    cases d with
    | nil => rfl
    | cons q d =>
      obtain ⟨y, w⟩ := q
      exact absurd (by simpa [cellAt] using (h y).symm) ((cellsWf_cons ..).1 hd).2.2.1
  | cons p c ih =>
    obtain ⟨x, v⟩ := p
    obtain ⟨c1, c2, c3, c4⟩ := (cellsWf_cons ..).1 hc
    cases d with
    | nil => exact absurd (by simpa [cellAt] using h x) c3
    | cons q d =>
      obtain ⟨y, w⟩ := q
      obtain ⟨d1, d2, d3, d4⟩ := (cellsWf_cons ..).1 hd
      have hxy : x = y := by
        rcases Nat.lt_trichotomy x y with hlt | rfl | hlt
        · have := h x
          rw [cellAt, if_pos rfl, cellAt, if_neg (by omega), cellAt_of_out_of_range d d4 (by omega)] at this
          exact absurd this c3
        · rfl
        · have := h y
          rw [cellAt, if_neg (by omega), cellAt_of_out_of_range c c4 (by omega), cellAt, if_pos rfl] at this
          exact absurd this.symm d3
      subst hxy
      have hvw : v = w := by simpa [cellAt] using h x
      subst hvw
      congr 1
      refine ih d c4 d4 fun z => ?_
      by_cases hz : x = z
      · subst hz
        rw [cellAt_of_out_of_range c c4 (by omega), cellAt_of_out_of_range d d4 (by omega)]
      · simpa [cellAt, hz] using h z

/-- Canonical memories of the same length with the same bytes are equal. -/
theorem Memory.ext_of_wf (m n : Memory) (hm : m.wf = true) (hn : n.wf = true) (hs : m.msize = n.msize)
    (h : ∀ x, cellAt m.cells x = cellAt n.cells x) : m = n := by
  cases m; cases n
  exact congrArg₂ Memory.mk (cells_ext _ _ hm hn h) hs

end Sys2Proof.Machine
end

