-- ==== Sys2Proof/Laws/Ops.lean ====
section
/-! SUPPORT. What each shared operation answers, said once: when it completes, when it raises, and (the `_cases` lemmas)
that there is nothing else it can do. -/

namespace Sys2Proof.Machine

variable {s t : State} {a b v : Word} {rest : List Word} {n : Nat}

/-- The state a fault leaves (R206): only `status` differs from the state the handler was entered with. -/
def faultedState (k : FaultKind) (s : State) : State := { s with status := .faulted k }

theorem raiseFault_eq (k : FaultKind) (s : State) : raiseFault k s = .next (faultedState k s) := rfl

/-- A stack of two or more Words shows its first two. -/
theorem two_le_length_iff (l : List Word) : 2 ≤ l.length ↔ ∃ a b rest, l = a :: b :: rest := by
  match l with
  | [] => simp
  | [_] => simp
  | _ :: _ :: _ => simp

/-! ## Push -/

theorem stackFull_iff : s.stackFull = true ↔ s.cfg.stackCap = some s.stack.length := by simp [State.stackFull]

theorem stackFull_eq_false_iff : s.stackFull = false ↔ s.cfg.stackCap ≠ some s.stack.length := by simp [State.stackFull]

theorem push_of_room (h : s.stackFull = false) (k : State → Host.Outcome State Fault Refusal) :
    push v s k = k { s with stack := v :: s.stack } := by simp [push, h]

theorem push_of_full (h : s.stackFull = true) (k : State → Host.Outcome State Fault Refusal) :
    push v s k = .next (faultedState .stackOverflow s) := by simp [push, h, raiseFault_eq]

theorem pushImmediate_of_room (h : s.stackFull = false) :
    pushImmediate n v s = .next { s with stack := v :: s.stack, pc := s.pc + n } := push_of_room h _

theorem pushImmediate_of_full (h : s.stackFull = true) :
    pushImmediate n v s = .next (faultedState .stackOverflow s) := push_of_full h _

/-! ## Binary and unary templates -/

theorem binary_of_operands (f : Word → Word → Word) (h : s.stack = a :: b :: rest) :
    binary f s = .next { s with stack := f a b :: rest } := by simp [binary, withOperands, h]

theorem binary_of_underflow (f : Word → Word → Word) (h : s.stack.length < 2) :
    binary f s = .next (faultedState .stackUnderflow s) := by
  unfold binary withOperands
  split
  · simp [*] at h
  · rfl

theorem unary_of_operand (g : Word → Word) (h : s.stack = a :: rest) :
    unary g s = .next { s with stack := g a :: rest } := by simp [unary, withOperand, h]

theorem unary_of_underflow (g : Word → Word) (h : s.stack = []) :
    unary g s = .next (faultedState .stackUnderflow s) := by simp [unary, withOperand, h, raiseFault_eq]

/-! ## Store template -/

theorem store_of_operands (w : Memory → Nat → Word → Memory) (h : s.stack = a :: b :: rest)
    (hc : s.exceedsMemCap (a.toNat + 32) = false) :
    store w s = .next { s with stack := rest, mem := w (s.mem.grow (a.toNat + 32)) a.toNat b } := by
  simp [store, withOperands, h, hc]

theorem store_of_limit (w : Memory → Nat → Word → Memory) (h : s.stack = a :: b :: rest)
    (hc : s.exceedsMemCap (a.toNat + 32) = true) :
    store w s = .next (faultedState .memoryLimit s) := by
  simp [store, withOperands, h, hc, raiseFault_eq]

theorem store_of_underflow (w : Memory → Nat → Word → Memory) (h : s.stack.length < 2) :
    store w s = .next (faultedState .stackUnderflow s) := by
  unfold store withOperands
  split
  · simp [*] at h
  · rfl

theorem exceedsMemCap_eq_false_iff : s.exceedsMemCap n = false ↔ ∀ c, s.cfg.memCap = some c → n ≤ c := by
  unfold State.exceedsMemCap
  split <;> simp [*]

theorem exceedsMemCap_iff : s.exceedsMemCap n = true ↔ ∃ c, s.cfg.memCap = some c ∧ c < n := by
  unfold State.exceedsMemCap
  split <;> simp [*]

end Sys2Proof.Machine
end

