-- ==== Sys2Proof/Laws/Exec.lean ====
section
/-! SUPPORT. What `exec` can answer, said once for all instructions: it completes with the instruction's effect, or it
enters one fault for the reason R200 gives. -/

namespace Sys2Proof.Machine

/-- The shapes of the handlers: what each instruction's effect is built from. -/
inductive Shape (i : Instr) : Prop where
  | binary (f : Word → Word → Word) (run : ∀ s, exec i s = binary f s)
      (row : i.pops = 2 ∧ i.pushes = 1 ∧ i.immBytes = 0 ∧ i.isPush = false ∧ i.isStore = false)
  | unary (g : Word → Word) (run : ∀ s, exec i s = unary g s)
      (row : i.pops = 1 ∧ i.pushes = 1 ∧ i.immBytes = 0 ∧ i.isPush = false ∧ i.isStore = false)
  | pop (run : ∀ s, exec i s = execPop s)
      (row : i.pops = 1 ∧ i.pushes = 0 ∧ i.immBytes = 0 ∧ i.isPush = false ∧ i.isStore = false)
  | store (w : Memory → Nat → Word → Memory) (hw : w = Memory.write32 ∨ w = Memory.write8)
      (run : ∀ s, exec i s = store w s)
      (row : i.pops = 2 ∧ i.pushes = 0 ∧ i.immBytes = 0 ∧ i.isPush = false ∧ i.isStore = true)
  | push (run : ∀ s, exec i s = pushImmediate i.immBytes i.imm s)
      (row : i.pops = 0 ∧ i.pushes = 1 ∧ i.isPush = true ∧ i.isStore = false)

/-- Every instruction has one of the shapes. -/
theorem shape_of (i : Instr) : Shape i := by
  cases i
  case add => exact .binary addWord (fun _ => rfl) ⟨rfl, rfl, rfl, rfl, rfl⟩
  case mul => exact .binary mulWord (fun _ => rfl) ⟨rfl, rfl, rfl, rfl, rfl⟩
  case sub => exact .binary subWord (fun _ => rfl) ⟨rfl, rfl, rfl, rfl, rfl⟩
  case div => exact .binary divWord (fun _ => rfl) ⟨rfl, rfl, rfl, rfl, rfl⟩
  case mod => exact .binary modWord (fun _ => rfl) ⟨rfl, rfl, rfl, rfl, rfl⟩
  case lt => exact .binary ltWord (fun _ => rfl) ⟨rfl, rfl, rfl, rfl, rfl⟩
  case gt => exact .binary gtWord (fun _ => rfl) ⟨rfl, rfl, rfl, rfl, rfl⟩
  case eq => exact .binary eqWord (fun _ => rfl) ⟨rfl, rfl, rfl, rfl, rfl⟩
  case and => exact .binary andWord (fun _ => rfl) ⟨rfl, rfl, rfl, rfl, rfl⟩
  case or => exact .binary orWord (fun _ => rfl) ⟨rfl, rfl, rfl, rfl, rfl⟩
  case xor => exact .binary xorWord (fun _ => rfl) ⟨rfl, rfl, rfl, rfl, rfl⟩
  case shl => exact .binary shlWord (fun _ => rfl) ⟨rfl, rfl, rfl, rfl, rfl⟩
  case shr => exact .binary shrWord (fun _ => rfl) ⟨rfl, rfl, rfl, rfl, rfl⟩
  case not => exact .unary notWord (fun _ => rfl) ⟨rfl, rfl, rfl, rfl, rfl⟩
  case pop => exact .pop (fun _ => rfl) ⟨rfl, rfl, rfl, rfl, rfl⟩
  case mstore => exact .store Memory.write32 (.inl rfl) (fun _ => rfl) ⟨rfl, rfl, rfl, rfl, rfl⟩
  case mstore8 => exact .store Memory.write8 (.inr rfl) (fun _ => rfl) ⟨rfl, rfl, rfl, rfl, rfl⟩
  all_goals exact .push (fun _ => rfl) ⟨rfl, rfl, rfl, rfl⟩

/-- What a completed instruction leaves (R146, R24): its frame, the length it adds to pc, and the stack above which its
operands stood. -/
structure Completes (i : Instr) (s t : State) : Prop where
  operands : i.pops ≤ s.stack.length
  room : i.isPush = true → s.stackFull = false
  cfg : t.cfg = s.cfg
  code : t.code = s.code
  status : t.status = s.status
  pc : t.pc = s.pc + i.immBytes
  stack : ∃ res : List Word, res.length = i.pushes ∧ t.stack = res ++ s.stack.drop i.pops
  mem : i.isStore = false → t.mem = s.mem
  stored : i.isStore = true → ∃ a b rest, s.stack = a :: b :: rest ∧ s.exceedsMemCap (a.toNat + 32) = false ∧
    (t.mem = (s.mem.grow (a.toNat + 32)).write32 a.toNat b ∨ t.mem = (s.mem.grow (a.toNat + 32)).write8 a.toNat b)

/-- Why an instruction raises a fault (R200). -/
def FaultsWith (i : Instr) (s : State) : FaultKind → Prop
  | .stackUnderflow => s.stack.length < i.pops
  | .invalidOpcode => False
  | .stackOverflow => i.isPush = true ∧ s.stackFull = true
  | .memoryLimit => i.isStore = true ∧ ∃ a b rest, s.stack = a :: b :: rest ∧ s.exceedsMemCap (a.toNat + 32) = true

theorem execPop_of_operand {s : State} {a : Word} {rest : List Word} (h : s.stack = a :: rest) :
    execPop s = .next { s with stack := rest } := by simp [execPop, withOperand, h]

theorem execPop_of_underflow {s : State} (h : s.stack = []) :
    execPop s = .next (faultedState .stackUnderflow s) := by simp [execPop, withOperand, h, raiseFault_eq]

/-- Everything `exec` can do. -/
theorem exec_cases (i : Instr) (s : State) :
    ∃ t, exec i s = .next t ∧ (Completes i s t ∨ ∃ k, FaultsWith i s k ∧ t = faultedState k s) := by
  cases shape_of i with
  | binary f run row =>
    obtain ⟨r1, r2, r3, r4, r5⟩ := row
    by_cases h : 2 ≤ s.stack.length
    · obtain ⟨a, b, rest, hs⟩ := (two_le_length_iff _).1 h
      refine ⟨_, (run s).trans (binary_of_operands f hs), .inl ?_⟩
      exact ⟨by omega, by simp [r4], rfl, rfl, rfl, by simp [r3], ⟨[f a b], by simp [r2], by simp [hs, r1]⟩,
        fun _ => rfl, by simp [r5]⟩
    · exact ⟨_, (run s).trans (binary_of_underflow f (by omega)), .inr ⟨.stackUnderflow, by simp [FaultsWith]; omega, rfl⟩⟩
  | unary g run row =>
    obtain ⟨r1, r2, r3, r4, r5⟩ := row
    cases hs : s.stack with
    | cons a rest =>
      refine ⟨_, (run s).trans (unary_of_operand g hs), .inl ?_⟩
      exact ⟨by simp [hs, r1], by simp [r4], rfl, rfl, rfl, by simp [r3], ⟨[g a], by simp [r2], by simp [hs, r1]⟩,
        fun _ => rfl, by simp [r5]⟩
    | nil => exact ⟨_, (run s).trans (unary_of_underflow g hs), .inr ⟨.stackUnderflow, by simp [FaultsWith, hs, r1], rfl⟩⟩
  | pop run row =>
    obtain ⟨r1, r2, r3, r4, r5⟩ := row
    cases hs : s.stack with
    | cons a rest =>
      refine ⟨_, (run s).trans (execPop_of_operand hs), .inl ?_⟩
      exact ⟨by simp [hs, r1], by simp [r4], rfl, rfl, rfl, by simp [r3], ⟨[], by simp [r2], by simp [hs, r1]⟩,
        fun _ => rfl, by simp [r5]⟩
    | nil => exact ⟨_, (run s).trans (execPop_of_underflow hs), .inr ⟨.stackUnderflow, by simp [FaultsWith, hs, r1], rfl⟩⟩
  | store w hw run row =>
    obtain ⟨r1, r2, r3, r4, r5⟩ := row
    by_cases h : 2 ≤ s.stack.length
    · obtain ⟨a, b, rest, hs⟩ := (two_le_length_iff _).1 h
      cases hc : s.exceedsMemCap (a.toNat + 32) with
      | false =>
        refine ⟨_, (run s).trans (store_of_operands w hs hc), .inl ?_⟩
        exact ⟨by omega, by simp [r4], rfl, rfl, rfl, by simp [r3], ⟨[], by simp [r2], by simp [hs, r1]⟩,
          by simp [r5], fun _ => ⟨a, b, rest, hs, hc, by rcases hw with rfl | rfl <;> simp⟩⟩
      | true =>
        exact ⟨_, (run s).trans (store_of_limit w hs hc), .inr ⟨.memoryLimit, ⟨r5, a, b, rest, hs, hc⟩, rfl⟩⟩
    · exact ⟨_, (run s).trans (store_of_underflow w (by omega)), .inr ⟨.stackUnderflow, by simp [FaultsWith]; omega, rfl⟩⟩
  | push run row =>
    obtain ⟨r1, r2, r4, r5⟩ := row
    cases hf : s.stackFull with
    | false =>
      refine ⟨_, (run s).trans (pushImmediate_of_room hf), .inl ?_⟩
      exact ⟨by omega, fun _ => hf, rfl, rfl, rfl, rfl, ⟨[i.imm], by simp [r2], by simp [r1]⟩, fun _ => rfl, by simp [r5]⟩
    | true => exact ⟨_, (run s).trans (pushImmediate_of_full hf), .inr ⟨.stackOverflow, ⟨r4, hf⟩, rfl⟩⟩

/-- A fault and its reason exclude completion: no reason of R200 holds of an instruction that completed. -/
theorem Completes.not_faultsWith {i : Instr} {s t : State} (h : Completes i s t) (k : FaultKind) :
    ¬ FaultsWith i s k := by
  intro hk
  cases k with
  | stackUnderflow => exact absurd h.operands (Nat.not_le.2 hk)
  | invalidOpcode => exact hk
  | stackOverflow => simpa [h.room hk.1] using hk.2
  | memoryLimit =>
    obtain ⟨hst, a, b, rest, hs, hc⟩ := hk
    obtain ⟨a', b', rest', hs', hc', -⟩ := h.stored hst
    rw [hs] at hs'
    cases hs'
    simp [hc'] at hc

/-- At most one reason holds (R209: "a step raises at most one fault"). -/
theorem FaultsWith.unique {i : Instr} {s : State} {k l : FaultKind} (hk : FaultsWith i s k) (hl : FaultsWith i s l) :
    k = l := by
  have push_pops : i.isPush = true → i.pops = 0 := by cases i <;> simp [Instr.isPush, Instr.pops]
  have push_store : i.isPush = true → i.isStore = false := by cases i <;> simp [Instr.isPush, Instr.isStore]
  have store_pops : i.isStore = true → i.pops = 2 := by cases i <;> simp [Instr.isStore, Instr.pops]
  cases k <;> cases l <;> simp only [FaultsWith] at hk hl <;> try rfl
  · have := push_pops hl.1; omega
  · obtain ⟨hst, a, b, rest, hs, -⟩ := hl
    have := store_pops hst
    simp [hs] at hk; omega
  · have := push_pops hk.1; omega
  · simp [push_store hk.1] at hl
  · obtain ⟨hst, a, b, rest, hs, -⟩ := hk
    have := store_pops hst
    simp [hs] at hl; omega
  · simp [push_store hl.1] at hk

end Sys2Proof.Machine
end

