-- ==== Sys2Proof/Laws/PerInstr.lean ====
section
/-! SUPPORT. The per-instruction families of LAWS.json: one lemma per constructor of `Instr`. -/

namespace Sys2Proof.Laws.EncodeLength

/-- An instruction encodes to one opcode byte and its immediate bytes, at most 33 bytes in all (R72). -/
def Statement (i : Instr) : Prop := ∀ m : OpcodeMap, (encode m i).length = 1 + i.immBytes ∧ (encode m i).length ≤ 33

theorem of_length (i : Instr) : Statement i := fun m => by
  have := immBytes_le i
  rw [length_encode, Instr.length]
  omega

theorem add : Statement .add := of_length _
theorem mul : Statement .mul := of_length _
theorem sub : Statement .sub := of_length _
theorem div : Statement .div := of_length _
theorem mod : Statement .mod := of_length _
theorem lt : Statement .lt := of_length _
theorem gt : Statement .gt := of_length _
theorem eq : Statement .eq := of_length _
theorem and : Statement .and := of_length _
theorem or : Statement .or := of_length _
theorem xor : Statement .xor := of_length _
theorem not : Statement .not := of_length _
theorem shl : Statement .shl := of_length _
theorem shr : Statement .shr := of_length _
theorem pop : Statement .pop := of_length _
theorem mstore : Statement .mstore := of_length _
theorem mstore8 : Statement .mstore8 := of_length _
theorem push0 : Statement .push0 := of_length _
theorem push1 (imm : Word) : Statement (.push1 imm) := of_length _
theorem push2 (imm : Word) : Statement (.push2 imm) := of_length _
theorem push3 (imm : Word) : Statement (.push3 imm) := of_length _
theorem push4 (imm : Word) : Statement (.push4 imm) := of_length _
theorem push5 (imm : Word) : Statement (.push5 imm) := of_length _
theorem push6 (imm : Word) : Statement (.push6 imm) := of_length _
theorem push7 (imm : Word) : Statement (.push7 imm) := of_length _
theorem push8 (imm : Word) : Statement (.push8 imm) := of_length _
theorem push9 (imm : Word) : Statement (.push9 imm) := of_length _
theorem push10 (imm : Word) : Statement (.push10 imm) := of_length _
theorem push11 (imm : Word) : Statement (.push11 imm) := of_length _
theorem push12 (imm : Word) : Statement (.push12 imm) := of_length _
theorem push13 (imm : Word) : Statement (.push13 imm) := of_length _
theorem push14 (imm : Word) : Statement (.push14 imm) := of_length _
theorem push15 (imm : Word) : Statement (.push15 imm) := of_length _
theorem push16 (imm : Word) : Statement (.push16 imm) := of_length _
theorem push17 (imm : Word) : Statement (.push17 imm) := of_length _
theorem push18 (imm : Word) : Statement (.push18 imm) := of_length _
theorem push19 (imm : Word) : Statement (.push19 imm) := of_length _
theorem push20 (imm : Word) : Statement (.push20 imm) := of_length _
theorem push21 (imm : Word) : Statement (.push21 imm) := of_length _
theorem push22 (imm : Word) : Statement (.push22 imm) := of_length _
theorem push23 (imm : Word) : Statement (.push23 imm) := of_length _
theorem push24 (imm : Word) : Statement (.push24 imm) := of_length _
theorem push25 (imm : Word) : Statement (.push25 imm) := of_length _
theorem push26 (imm : Word) : Statement (.push26 imm) := of_length _
theorem push27 (imm : Word) : Statement (.push27 imm) := of_length _
theorem push28 (imm : Word) : Statement (.push28 imm) := of_length _
theorem push29 (imm : Word) : Statement (.push29 imm) := of_length _
theorem push30 (imm : Word) : Statement (.push30 imm) := of_length _
theorem push31 (imm : Word) : Statement (.push31 imm) := of_length _
theorem push32 (imm : Word) : Statement (.push32 imm) := of_length _

end Sys2Proof.Laws.EncodeLength
end

