-- ==== Sys2Proof/Laws/Step.lean ====
section
/-! SUPPORT. What `step` and `run` can answer, said once; and that a placed word is what the next step runs. -/

namespace Sys2Proof.Machine

/-- The ways a step goes (R100): it is not taken (R218), it halts (R101), it runs a decoded instruction (R102, R103), or it
meets an unrecognized byte under either policy (R139). -/
inductive StepCase (s t : State) : Prop where
  | final (h : s.status ≠ .running) (ht : t = s)
  | halts (h : s.status = .running) (hpc : s.code.length ≤ s.pc) (ht : t = halt s)
  | runs (i : Instr) (h : s.status = .running) (hpc : s.pc < s.code.length) (hd : decodeAtPc s = .ok i)
      (hx : exec i (fetchNext s) = .next t)
  | skips (e : DecodeError) (h : s.status = .running) (hpc : s.pc < s.code.length) (hd : decodeAtPc s = .error e)
      (hp : s.cfg.invalidOpcode = .nop) (ht : t = fetchNext s)
  | rejects (e : DecodeError) (h : s.status = .running) (hpc : s.pc < s.code.length) (hd : decodeAtPc s = .error e)
      (hp : s.cfg.invalidOpcode = .fault) (ht : t = faultedState .invalidOpcode (fetchNext s))

theorem atEnd_iff (s : State) : s.atEnd = true ↔ s.code.length ≤ s.pc := by simp [State.atEnd]

theorem step_of_final {s : State} (h : s.status ≠ .running) : step s = .next s := by
  unfold step; split <;> simp_all

theorem step_of_atEnd {s : State} (h : s.status = .running) (hpc : s.code.length ≤ s.pc) : step s = .next (halt s) := by
  simp [step, h, (atEnd_iff s).2 hpc]

theorem step_of_decode {s : State} {i : Instr} (h : s.status = .running) (hpc : s.pc < s.code.length)
    (hd : decodeAtPc s = .ok i) : step s = exec i (fetchNext s) := by
  have : s.atEnd = false := by simp [State.atEnd, hpc]
  simp [step, h, this, hd]

theorem step_of_unrecognized {s : State} {e : DecodeError} (h : s.status = .running) (hpc : s.pc < s.code.length)
    (hd : decodeAtPc s = .error e) : step s = execUnrecognized (fetchNext s) := by
  have : s.atEnd = false := by simp [State.atEnd, hpc]
  simp [step, h, this, hd]

/-- Everything `step` can do: it always answers a next state. -/
theorem step_cases (s : State) : ∃ t, step s = .next t ∧ StepCase s t := by
  by_cases h : s.status = .running
  · by_cases hpc : s.code.length ≤ s.pc
    · exact ⟨_, step_of_atEnd h hpc, .halts h hpc rfl⟩
    · have hpc : s.pc < s.code.length := by omega
      cases hd : decodeAtPc s with
      | ok i =>
        obtain ⟨t, ht, -⟩ := exec_cases i (fetchNext s)
        exact ⟨t, (step_of_decode h hpc hd).trans ht, .runs i h hpc hd ht⟩
      | error e =>
        have hs := step_of_unrecognized h hpc hd
        cases hp : s.cfg.invalidOpcode with
        | nop => exact ⟨_, hs.trans (by simp [execUnrecognized, hp]), .skips e h hpc hd hp rfl⟩
        | fault => exact ⟨_, hs.trans (by simp [execUnrecognized, hp, raiseFault_eq]), .rejects e h hpc hd hp rfl⟩
  · exact ⟨s, step_of_final h, .final h rfl⟩

theorem step_cases_of_next {s t : State} (h : step s = .next t) : StepCase s t := by
  obtain ⟨u, hu, hc⟩ := step_cases s
  rw [h] at hu; cases hu; exact hc

theorem exec_cases_of_next {i : Instr} {s t : State} (h : exec i s = .next t) :
    Completes i s t ∨ ∃ k, FaultsWith i s k ∧ t = faultedState k s := by
  obtain ⟨u, hu, hc⟩ := exec_cases i s
  rw [h] at hu; cases hu; exact hc

/-- What an unrecognized byte does under each policy (R139). -/
theorem step_unrecognized_by_policy {s : State} {e : DecodeError} (h : s.status = .running) (hpc : s.pc < s.code.length)
    (he : decode s.cfg.opcodes (s.code.drop s.pc) = .error e) :
    (s.cfg.invalidOpcode = .nop → step s = .next { s with pc := s.pc + 1 }) ∧
    (s.cfg.invalidOpcode = .fault → step s = .next { s with pc := s.pc + 1, status := .faulted .invalidOpcode }) := by
  rw [step_of_unrecognized h hpc he]
  constructor <;> intro hp <;> simp [execUnrecognized, hp, raiseFault, fetchNext]

/-- From a Running state an instruction ends in a fault status exactly for its reason (R200, R209). -/
theorem status_faulted_iff {i : Instr} {s t : State} (hr : s.status = .running) (h : exec i s = .next t) (k : FaultKind) :
    t.status = .faulted k ↔ FaultsWith i s k := by
  rcases exec_cases_of_next h with hc | ⟨l, hl, rfl⟩
  · refine ⟨fun h => ?_, fun h => absurd h (hc.not_faultsWith k)⟩
    rw [hc.status, hr] at h
    cases h
  · refine ⟨fun h => ?_, fun h => ?_⟩
    · cases h; exact hl
    · cases hl.unique h; rfl

theorem decode_tableBytes {nbits w : Nat} {i : Instr} (h : decodeTableWord nbits w = some i) :
    decode OpcodeMap.default (tableBytes nbits w) = .ok i := by
  unfold decodeTableWord at h
  split at h <;> simp_all

/-- The bytes stand where they were placed. -/
theorem drop_placeBytes (code bytes : List Byte) (pc : Nat) :
    (placeBytes code pc bytes).drop pc = bytes ++ code.drop (pc + bytes.length) := by
  have h : (code.take pc ++ List.replicate (pc - code.length) (0 : Byte)).length = pc := by simp; omega
  unfold placeBytes
  rw [List.append_assoc, List.drop_left' h]

theorem decode_append (m : OpcodeMap) (bytes tail : List Byte) (h : bytes.length = 33) :
    decode m (bytes ++ tail) = decode m bytes := by
  match bytes with
  | [] => simp at h
  | op :: rest =>
    have hi : ∀ n ≤ 32, readImm (op :: rest ++ tail) 1 n = readImm (op :: rest) 1 n := fun n hn => by
      unfold readImm
      rw [readImmValue_congr _ (op :: rest) 1 1 n fun i hi => byteOrZero_append_left _ _ _ (by omega)]
    have ho : decodeOpcode m op (op :: rest ++ tail) = decodeOpcode m op (op :: rest) := by
      unfold decodeOpcode
      split
      · rename_i hp
        rw [hi _ (by simp [isPushByte] at hp; omega)]
      · rfl
    simpa [decode] using by rw [← List.cons_append, ho]

/-- The word placed by `withFetchWord` is the instruction the very next step runs, under the table's opcode values. -/
theorem step_withFetchWord {s : State} {nbits w : Nat} {i : Instr} (hm : s.cfg.opcodes = OpcodeMap.default)
    (h : decodeTableWord nbits w = some i) :
    step (s.withFetchWord nbits w) = exec i (fetchNext (s.withFetchWord nbits w)) := by
  apply step_of_decode rfl
  · simp [placeBytes]; omega
  · show decode s.cfg.opcodes ((placeBytes s.code s.pc (tableBytes nbits w)).drop s.pc) = .ok i
    rw [drop_placeBytes, decode_append _ _ _ (length_tableBytes _ _), hm, decode_tableBytes h]

end Sys2Proof.Machine
end

