-- ==== Sys2Proof/Laws/Word.lean ====
section
/-! SUPPORT. The result functions against the formulas of the spec, which are on naturals (00_scope.md R7): each is the
`wrap` (R8) of its formula. -/

namespace Sys2Proof.Machine

theorem addWord_eq (a b : Word) : addWord a b = BitVec.ofNat 256 ((a.toNat + b.toNat) % 2 ^ 256) := by
  apply BitVec.eq_of_toNat_eq; simp [addWord]

theorem mulWord_eq (a b : Word) : mulWord a b = BitVec.ofNat 256 ((a.toNat * b.toNat) % 2 ^ 256) := by
  apply BitVec.eq_of_toNat_eq; simp [mulWord]

theorem subWord_eq (a b : Word) :
    subWord a b = BitVec.ofNat 256 (if a.toNat ≤ b.toNat then b.toNat - a.toNat else 2 ^ 256 + b.toNat - a.toNat) := by
  have ha := a.isLt
  have hb := b.isLt
  apply BitVec.eq_of_toNat_eq
  simp only [subWord, BitVec.toNat_sub, BitVec.toNat_ofNat]
  split <;> omega

theorem divWord_eq (a b : Word) :
    divWord a b = BitVec.ofNat 256 (if a.toNat = 0 then 0 else b.toNat / a.toNat) := by
  by_cases h : a = 0
  · subst h; simp [divWord]
  · have : a.toNat ≠ 0 := fun h0 => h (BitVec.eq_of_toNat_eq (by simpa using h0))
    rw [divWord, if_neg h, if_neg this]

theorem modWord_eq (a b : Word) :
    modWord a b = BitVec.ofNat 256 (if a.toNat = 0 then 0 else b.toNat % a.toNat) := by
  by_cases h : a = 0
  · subst h; simp [modWord]
  · have : a.toNat ≠ 0 := fun h0 => h (BitVec.eq_of_toNat_eq (by simpa using h0))
    rw [modWord, if_neg h, if_neg this]

theorem truthWord_eq (c : Prop) [Decidable c] : truthWord (decide c) = BitVec.ofNat 256 (if c then 1 else 0) := by
  by_cases h : c <;> simp [truthWord, h]

theorem eqWord_eq (a b : Word) : eqWord a b = BitVec.ofNat 256 (if a.toNat = b.toNat then 1 else 0) := by
  rw [eqWord, truthWord_eq]; simp [BitVec.toNat_inj]

theorem notWord_eq (a : Word) : notWord a = BitVec.ofNat 256 (2 ^ 256 - 1 - a.toNat) := by
  have ha := a.isLt
  apply BitVec.eq_of_toNat_eq
  rw [notWord, BitVec.toNat_not, BitVec.toNat_ofNat, Nat.mod_eq_of_lt (by omega)]

theorem andWord_eq (a b : Word) : andWord a b = BitVec.ofNat 256 (b.toNat &&& a.toNat) := by
  apply BitVec.eq_of_toNat_eq
  rw [andWord, ← BitVec.toNat_and, BitVec.ofNat_toNat, BitVec.setWidth_eq]

theorem orWord_eq (a b : Word) : orWord a b = BitVec.ofNat 256 (b.toNat ||| a.toNat) := by
  apply BitVec.eq_of_toNat_eq
  rw [orWord, ← BitVec.toNat_or, BitVec.ofNat_toNat, BitVec.setWidth_eq]

theorem xorWord_eq (a b : Word) : xorWord a b = BitVec.ofNat 256 (b.toNat ^^^ a.toNat) := by
  apply BitVec.eq_of_toNat_eq
  rw [xorWord, ← BitVec.toNat_xor, BitVec.ofNat_toNat, BitVec.setWidth_eq]

theorem shlWord_eq (a b : Word) :
    shlWord a b = BitVec.ofNat 256 (if 256 ≤ a.toNat then 0 else (b.toNat * 2 ^ a.toNat) % 2 ^ 256) := by
  unfold shlWord
  split
  · rfl
  · apply BitVec.eq_of_toNat_eq
    rw [BitVec.toNat_shiftLeft, BitVec.toNat_ofNat, Nat.shiftLeft_eq, Nat.mod_mod]

theorem shrWord_eq (a b : Word) :
    shrWord a b = BitVec.ofNat 256 (if 256 ≤ a.toNat then 0 else b.toNat / 2 ^ a.toNat) := by
  have hb := b.isLt
  unfold shrWord
  split
  · rfl
  · apply BitVec.eq_of_toNat_eq
    rw [BitVec.toNat_ushiftRight, BitVec.toNat_ofNat, Nat.shiftRight_eq_div_pow,
      Nat.mod_eq_of_lt (lt_of_le_of_lt (Nat.div_le_self _ _) hb)]

/-- R155: quotient and remainder recombine exactly. -/
theorem div_mod_recombine (a b : Word) (h : a ≠ 0) :
    b.toNat = a.toNat * (divWord a b).toNat + (modWord a b).toNat ∧ (modWord a b).toNat < a.toNat := by
  have ha : 0 < a.toNat := Nat.pos_of_ne_zero fun h0 => h (BitVec.eq_of_toNat_eq (by simpa using h0))
  have hb := b.isLt
  have hq : (divWord a b).toNat = b.toNat / a.toNat := by
    rw [divWord, if_neg h, BitVec.toNat_ofNat, Nat.mod_eq_of_lt (lt_of_le_of_lt (Nat.div_le_self _ _) hb)]
  have hr : (modWord a b).toNat = b.toNat % a.toNat := by
    rw [modWord, if_neg h, BitVec.toNat_ofNat, Nat.mod_eq_of_lt (lt_of_le_of_lt (Nat.mod_le _ _) hb)]
  rw [hq, hr]
  exact ⟨(Nat.div_add_mod _ _).symm, Nat.mod_lt _ ha⟩

end Sys2Proof.Machine
end

