-- ==== Sys2Proof/Tests/Slice0.lean ====
section
/-! SUPPORT. Tests and witnesses. Expected values are from spec/95_test_vectors.md and the examples of the rules, or worked
out by hand from the rules; each test runs one step or one handler. A `witness_<Name>` theorem shows states and operands that
meet the hypotheses of obligation <Name>, at the boundary of each clause. -/

namespace Sys2Proof.Tests

open Sys2Proof Sys2Proof.Machine Sys2Proof.Claims

/-- 2^256 - 1. -/
def mask : Word := BitVec.allOnes 256

/-- 2^255. -/
def top : Word := 1 <<< 255

/-- A Running core in the reference configuration with a stack, top first, and no code. -/
def st (stack : List Word) : State := { State.reset with stack := stack }

/-- The same with code, at pc. -/
def at_ (code : List Byte) (pc : Nat) (stack : List Word) : State :=
  { State.reset with code := code, pc := pc, stack := stack }

/-- The configurations that differ from the default in one parameter. -/
def strict : Config := { Config.default with invalidOpcode := .fault }
def stackCap (n : Nat) : Config := { Config.default with stackCap := some n }
def memCap (n : Nat) : Config := { Config.default with memCap := some n }

/-- The next state, when there is one. -/
def next? (o : Host.Outcome State Fault Refusal) : Option State :=
  match o with
  | .next t => some t
  | .fault _ => none
  | .refused _ => none

/-- The stack after a handler. -/
def stackAfter (i : Instr) (stack : List Word) : Option (List Word) := (next? (exec i (st stack))).map (·.stack)

/-- The status after a handler. -/
def statusAfter (i : Instr) (s : State) : Option Status := (next? (exec i s)).map (·.status)

/-! ## Well-formedness: what the checks refuse -/

/-- An immediate of 2^(8N) is refused and 2^(8N) - 1 is not (R79). -/
theorem test_wellFormed_push1_to_8 :
    ((Instr.push1 (1 <<< 8)).wellFormed = false ∧ (Instr.push1 ((1 <<< 8) - 1)).wellFormed = true) ∧
    ((Instr.push2 (1 <<< 16)).wellFormed = false ∧ (Instr.push2 ((1 <<< 16) - 1)).wellFormed = true) ∧
    ((Instr.push3 (1 <<< 24)).wellFormed = false ∧ (Instr.push3 ((1 <<< 24) - 1)).wellFormed = true) ∧
    ((Instr.push4 (1 <<< 32)).wellFormed = false ∧ (Instr.push4 ((1 <<< 32) - 1)).wellFormed = true) ∧
    ((Instr.push5 (1 <<< 40)).wellFormed = false ∧ (Instr.push5 ((1 <<< 40) - 1)).wellFormed = true) ∧
    ((Instr.push6 (1 <<< 48)).wellFormed = false ∧ (Instr.push6 ((1 <<< 48) - 1)).wellFormed = true) ∧
    ((Instr.push7 (1 <<< 56)).wellFormed = false ∧ (Instr.push7 ((1 <<< 56) - 1)).wellFormed = true) ∧
    ((Instr.push8 (1 <<< 64)).wellFormed = false ∧ (Instr.push8 ((1 <<< 64) - 1)).wellFormed = true) := by decide

/-- An immediate of 2^(8N) is refused and 2^(8N) - 1 is not (R79). -/
theorem test_wellFormed_push9_to_16 :
    ((Instr.push9 (1 <<< 72)).wellFormed = false ∧ (Instr.push9 ((1 <<< 72) - 1)).wellFormed = true) ∧
    ((Instr.push10 (1 <<< 80)).wellFormed = false ∧ (Instr.push10 ((1 <<< 80) - 1)).wellFormed = true) ∧
    ((Instr.push11 (1 <<< 88)).wellFormed = false ∧ (Instr.push11 ((1 <<< 88) - 1)).wellFormed = true) ∧
    ((Instr.push12 (1 <<< 96)).wellFormed = false ∧ (Instr.push12 ((1 <<< 96) - 1)).wellFormed = true) ∧
    ((Instr.push13 (1 <<< 104)).wellFormed = false ∧ (Instr.push13 ((1 <<< 104) - 1)).wellFormed = true) ∧
    ((Instr.push14 (1 <<< 112)).wellFormed = false ∧ (Instr.push14 ((1 <<< 112) - 1)).wellFormed = true) ∧
    ((Instr.push15 (1 <<< 120)).wellFormed = false ∧ (Instr.push15 ((1 <<< 120) - 1)).wellFormed = true) ∧
    ((Instr.push16 (1 <<< 128)).wellFormed = false ∧ (Instr.push16 ((1 <<< 128) - 1)).wellFormed = true) := by decide

/-- An immediate of 2^(8N) is refused and 2^(8N) - 1 is not (R79). -/
theorem test_wellFormed_push17_to_24 :
    ((Instr.push17 (1 <<< 136)).wellFormed = false ∧ (Instr.push17 ((1 <<< 136) - 1)).wellFormed = true) ∧
    ((Instr.push18 (1 <<< 144)).wellFormed = false ∧ (Instr.push18 ((1 <<< 144) - 1)).wellFormed = true) ∧
    ((Instr.push19 (1 <<< 152)).wellFormed = false ∧ (Instr.push19 ((1 <<< 152) - 1)).wellFormed = true) ∧
    ((Instr.push20 (1 <<< 160)).wellFormed = false ∧ (Instr.push20 ((1 <<< 160) - 1)).wellFormed = true) ∧
    ((Instr.push21 (1 <<< 168)).wellFormed = false ∧ (Instr.push21 ((1 <<< 168) - 1)).wellFormed = true) ∧
    ((Instr.push22 (1 <<< 176)).wellFormed = false ∧ (Instr.push22 ((1 <<< 176) - 1)).wellFormed = true) ∧
    ((Instr.push23 (1 <<< 184)).wellFormed = false ∧ (Instr.push23 ((1 <<< 184) - 1)).wellFormed = true) ∧
    ((Instr.push24 (1 <<< 192)).wellFormed = false ∧ (Instr.push24 ((1 <<< 192) - 1)).wellFormed = true) := by decide

/-- An immediate of 2^(8N) is refused and 2^(8N) - 1 is not (R79). Every Word fits PUSH32. -/
theorem test_wellFormed_push25_to_32 :
    ((Instr.push25 (1 <<< 200)).wellFormed = false ∧ (Instr.push25 ((1 <<< 200) - 1)).wellFormed = true) ∧
    ((Instr.push26 (1 <<< 208)).wellFormed = false ∧ (Instr.push26 ((1 <<< 208) - 1)).wellFormed = true) ∧
    ((Instr.push27 (1 <<< 216)).wellFormed = false ∧ (Instr.push27 ((1 <<< 216) - 1)).wellFormed = true) ∧
    ((Instr.push28 (1 <<< 224)).wellFormed = false ∧ (Instr.push28 ((1 <<< 224) - 1)).wellFormed = true) ∧
    ((Instr.push29 (1 <<< 232)).wellFormed = false ∧ (Instr.push29 ((1 <<< 232) - 1)).wellFormed = true) ∧
    ((Instr.push30 (1 <<< 240)).wellFormed = false ∧ (Instr.push30 ((1 <<< 240) - 1)).wellFormed = true) ∧
    ((Instr.push31 (1 <<< 248)).wellFormed = false ∧ (Instr.push31 ((1 <<< 248) - 1)).wellFormed = true) ∧
    (Instr.push32 mask).wellFormed = true := by decide

/-- A map that collides with a byte of the source, with itself or with the PUSHn range is refused (R76, R78). -/
theorem test_opcodeMap_wellFormed :
    OpcodeMap.default.wellFormed = true ∧
    ({ OpcodeMap.default with mul := 0x01 } : OpcodeMap).wellFormed = false ∧
    ({ OpcodeMap.default with mul := 0x06 } : OpcodeMap).wellFormed = false ∧
    ({ OpcodeMap.default with mstore8 := 0x60 } : OpcodeMap).wellFormed = false ∧
    ({ OpcodeMap.default with mstore8 := 0x7f } : OpcodeMap).wellFormed = false ∧
    ({ OpcodeMap.default with mstore8 := 0x80 } : OpcodeMap).wellFormed = true := by decide

/-! ## Decoding: every constructor from bytes written out from R75 and the examples of R107 to R138 -/

theorem test_decode_formatO :
    decode OpcodeMap.default [0x01] = .ok .add ∧
    decode OpcodeMap.default [0x02] = .ok .mul ∧
    decode OpcodeMap.default [0x03] = .ok .sub ∧
    decode OpcodeMap.default [0x04] = .ok .div ∧
    decode OpcodeMap.default [0x06] = .ok .mod ∧
    decode OpcodeMap.default [0x10] = .ok .lt ∧
    decode OpcodeMap.default [0x11] = .ok .gt ∧
    decode OpcodeMap.default [0x14] = .ok .eq ∧
    decode OpcodeMap.default [0x16] = .ok .and ∧
    decode OpcodeMap.default [0x17] = .ok .or ∧
    decode OpcodeMap.default [0x18] = .ok .xor ∧
    decode OpcodeMap.default [0x19] = .ok .not ∧
    decode OpcodeMap.default [0x1b] = .ok .shl ∧
    decode OpcodeMap.default [0x1c] = .ok .shr ∧
    decode OpcodeMap.default [0x50] = .ok .pop ∧
    decode OpcodeMap.default [0x52] = .ok .mstore ∧
    decode OpcodeMap.default [0x53] = .ok .mstore8 ∧
    decode OpcodeMap.default [0x5f] = .ok .push0 := by refine ⟨rfl, rfl, rfl, rfl, rfl, rfl, rfl, rfl, rfl, rfl, rfl, rfl, rfl, rfl, rfl, rfl, rfl, rfl⟩

theorem test_decode_push1_to_8 :
    decode OpcodeMap.default [0x60, 0x01] = .ok (.push1 0x01) ∧
    decode OpcodeMap.default [0x61, 0x01, 0x02] = .ok (.push2 0x0102) ∧
    decode OpcodeMap.default [0x62, 0x01, 0x02, 0x03] = .ok (.push3 0x010203) ∧
    decode OpcodeMap.default [0x63, 0x01, 0x02, 0x03, 0x04] = .ok (.push4 0x01020304) ∧
    decode OpcodeMap.default [0x64, 0x01, 0x02, 0x03, 0x04, 0x05] = .ok (.push5 0x0102030405) ∧
    decode OpcodeMap.default [0x65, 0x01, 0x02, 0x03, 0x04, 0x05, 0x06] = .ok (.push6 0x010203040506) ∧
    decode OpcodeMap.default [0x66, 0x01, 0x02, 0x03, 0x04, 0x05, 0x06, 0x07] = .ok (.push7 0x01020304050607) ∧
    decode OpcodeMap.default [0x67, 0x01, 0x02, 0x03, 0x04, 0x05, 0x06, 0x07, 0x08] = .ok (.push8 0x0102030405060708) := by refine ⟨rfl, rfl, rfl, rfl, rfl, rfl, rfl, rfl⟩

theorem test_decode_push9_to_16 :
    decode OpcodeMap.default [0x68, 0x01, 0x02, 0x03, 0x04, 0x05, 0x06, 0x07, 0x08, 0x09] = .ok (.push9 0x010203040506070809) ∧
    decode OpcodeMap.default [0x69, 0x01, 0x02, 0x03, 0x04, 0x05, 0x06, 0x07, 0x08, 0x09, 0x0a] = .ok (.push10 0x0102030405060708090a) ∧
    decode OpcodeMap.default [0x6a, 0x01, 0x02, 0x03, 0x04, 0x05, 0x06, 0x07, 0x08, 0x09, 0x0a, 0x0b] = .ok (.push11 0x0102030405060708090a0b) ∧
    decode OpcodeMap.default [0x6b, 0x01, 0x02, 0x03, 0x04, 0x05, 0x06, 0x07, 0x08, 0x09, 0x0a, 0x0b, 0x0c] = .ok (.push12 0x0102030405060708090a0b0c) ∧
    decode OpcodeMap.default [0x6c, 0x01, 0x02, 0x03, 0x04, 0x05, 0x06, 0x07, 0x08, 0x09, 0x0a, 0x0b, 0x0c, 0x0d] = .ok (.push13 0x0102030405060708090a0b0c0d) ∧
    decode OpcodeMap.default [0x6d, 0x01, 0x02, 0x03, 0x04, 0x05, 0x06, 0x07, 0x08, 0x09, 0x0a, 0x0b, 0x0c, 0x0d, 0x0e] = .ok (.push14 0x0102030405060708090a0b0c0d0e) ∧
    decode OpcodeMap.default [0x6e, 0x01, 0x02, 0x03, 0x04, 0x05, 0x06, 0x07, 0x08, 0x09, 0x0a, 0x0b, 0x0c, 0x0d, 0x0e, 0x0f] = .ok (.push15 0x0102030405060708090a0b0c0d0e0f) ∧
    decode OpcodeMap.default [0x6f, 0x01, 0x02, 0x03, 0x04, 0x05, 0x06, 0x07, 0x08, 0x09, 0x0a, 0x0b, 0x0c, 0x0d, 0x0e, 0x0f, 0x10] = .ok (.push16 0x0102030405060708090a0b0c0d0e0f10) := by refine ⟨rfl, rfl, rfl, rfl, rfl, rfl, rfl, rfl⟩

theorem test_decode_push17_to_24 :
    decode OpcodeMap.default [0x70, 0x01, 0x02, 0x03, 0x04, 0x05, 0x06, 0x07, 0x08, 0x09, 0x0a, 0x0b, 0x0c, 0x0d, 0x0e, 0x0f, 0x10, 0x11] = .ok (.push17 0x0102030405060708090a0b0c0d0e0f1011) ∧
    decode OpcodeMap.default [0x71, 0x01, 0x02, 0x03, 0x04, 0x05, 0x06, 0x07, 0x08, 0x09, 0x0a, 0x0b, 0x0c, 0x0d, 0x0e, 0x0f, 0x10, 0x11, 0x12] = .ok (.push18 0x0102030405060708090a0b0c0d0e0f101112) ∧
    decode OpcodeMap.default [0x72, 0x01, 0x02, 0x03, 0x04, 0x05, 0x06, 0x07, 0x08, 0x09, 0x0a, 0x0b, 0x0c, 0x0d, 0x0e, 0x0f, 0x10, 0x11, 0x12, 0x13] = .ok (.push19 0x0102030405060708090a0b0c0d0e0f10111213) ∧
    decode OpcodeMap.default [0x73, 0x01, 0x02, 0x03, 0x04, 0x05, 0x06, 0x07, 0x08, 0x09, 0x0a, 0x0b, 0x0c, 0x0d, 0x0e, 0x0f, 0x10, 0x11, 0x12, 0x13, 0x14] = .ok (.push20 0x0102030405060708090a0b0c0d0e0f1011121314) ∧
    decode OpcodeMap.default [0x74, 0x01, 0x02, 0x03, 0x04, 0x05, 0x06, 0x07, 0x08, 0x09, 0x0a, 0x0b, 0x0c, 0x0d, 0x0e, 0x0f, 0x10, 0x11, 0x12, 0x13, 0x14, 0x15] = .ok (.push21 0x0102030405060708090a0b0c0d0e0f101112131415) ∧
    decode OpcodeMap.default [0x75, 0x01, 0x02, 0x03, 0x04, 0x05, 0x06, 0x07, 0x08, 0x09, 0x0a, 0x0b, 0x0c, 0x0d, 0x0e, 0x0f, 0x10, 0x11, 0x12, 0x13, 0x14, 0x15, 0x16] = .ok (.push22 0x0102030405060708090a0b0c0d0e0f10111213141516) ∧
    decode OpcodeMap.default [0x76, 0x01, 0x02, 0x03, 0x04, 0x05, 0x06, 0x07, 0x08, 0x09, 0x0a, 0x0b, 0x0c, 0x0d, 0x0e, 0x0f, 0x10, 0x11, 0x12, 0x13, 0x14, 0x15, 0x16, 0x17] = .ok (.push23 0x0102030405060708090a0b0c0d0e0f1011121314151617) ∧
    decode OpcodeMap.default [0x77, 0x01, 0x02, 0x03, 0x04, 0x05, 0x06, 0x07, 0x08, 0x09, 0x0a, 0x0b, 0x0c, 0x0d, 0x0e, 0x0f, 0x10, 0x11, 0x12, 0x13, 0x14, 0x15, 0x16, 0x17, 0x18] = .ok (.push24 0x0102030405060708090a0b0c0d0e0f101112131415161718) := by refine ⟨rfl, rfl, rfl, rfl, rfl, rfl, rfl, rfl⟩

theorem test_decode_push25_to_32 :
    decode OpcodeMap.default [0x78, 0x01, 0x02, 0x03, 0x04, 0x05, 0x06, 0x07, 0x08, 0x09, 0x0a, 0x0b, 0x0c, 0x0d, 0x0e, 0x0f, 0x10, 0x11, 0x12, 0x13, 0x14, 0x15, 0x16, 0x17, 0x18, 0x19] = .ok (.push25 0x0102030405060708090a0b0c0d0e0f10111213141516171819) ∧
    decode OpcodeMap.default [0x79, 0x01, 0x02, 0x03, 0x04, 0x05, 0x06, 0x07, 0x08, 0x09, 0x0a, 0x0b, 0x0c, 0x0d, 0x0e, 0x0f, 0x10, 0x11, 0x12, 0x13, 0x14, 0x15, 0x16, 0x17, 0x18, 0x19, 0x1a] = .ok (.push26 0x0102030405060708090a0b0c0d0e0f101112131415161718191a) ∧
    decode OpcodeMap.default [0x7a, 0x01, 0x02, 0x03, 0x04, 0x05, 0x06, 0x07, 0x08, 0x09, 0x0a, 0x0b, 0x0c, 0x0d, 0x0e, 0x0f, 0x10, 0x11, 0x12, 0x13, 0x14, 0x15, 0x16, 0x17, 0x18, 0x19, 0x1a, 0x1b] = .ok (.push27 0x0102030405060708090a0b0c0d0e0f101112131415161718191a1b) ∧
    decode OpcodeMap.default [0x7b, 0x01, 0x02, 0x03, 0x04, 0x05, 0x06, 0x07, 0x08, 0x09, 0x0a, 0x0b, 0x0c, 0x0d, 0x0e, 0x0f, 0x10, 0x11, 0x12, 0x13, 0x14, 0x15, 0x16, 0x17, 0x18, 0x19, 0x1a, 0x1b, 0x1c] = .ok (.push28 0x0102030405060708090a0b0c0d0e0f101112131415161718191a1b1c) ∧
    decode OpcodeMap.default [0x7c, 0x01, 0x02, 0x03, 0x04, 0x05, 0x06, 0x07, 0x08, 0x09, 0x0a, 0x0b, 0x0c, 0x0d, 0x0e, 0x0f, 0x10, 0x11, 0x12, 0x13, 0x14, 0x15, 0x16, 0x17, 0x18, 0x19, 0x1a, 0x1b, 0x1c, 0x1d] = .ok (.push29 0x0102030405060708090a0b0c0d0e0f101112131415161718191a1b1c1d) ∧
    decode OpcodeMap.default [0x7d, 0x01, 0x02, 0x03, 0x04, 0x05, 0x06, 0x07, 0x08, 0x09, 0x0a, 0x0b, 0x0c, 0x0d, 0x0e, 0x0f, 0x10, 0x11, 0x12, 0x13, 0x14, 0x15, 0x16, 0x17, 0x18, 0x19, 0x1a, 0x1b, 0x1c, 0x1d, 0x1e] = .ok (.push30 0x0102030405060708090a0b0c0d0e0f101112131415161718191a1b1c1d1e) ∧
    decode OpcodeMap.default [0x7e, 0x01, 0x02, 0x03, 0x04, 0x05, 0x06, 0x07, 0x08, 0x09, 0x0a, 0x0b, 0x0c, 0x0d, 0x0e, 0x0f, 0x10, 0x11, 0x12, 0x13, 0x14, 0x15, 0x16, 0x17, 0x18, 0x19, 0x1a, 0x1b, 0x1c, 0x1d, 0x1e, 0x1f] = .ok (.push31 0x0102030405060708090a0b0c0d0e0f101112131415161718191a1b1c1d1e1f) ∧
    decode OpcodeMap.default [0x7f, 0x01, 0x02, 0x03, 0x04, 0x05, 0x06, 0x07, 0x08, 0x09, 0x0a, 0x0b, 0x0c, 0x0d, 0x0e, 0x0f, 0x10, 0x11, 0x12, 0x13, 0x14, 0x15, 0x16, 0x17, 0x18, 0x19, 0x1a, 0x1b, 0x1c, 0x1d, 0x1e, 0x1f, 0x20] = .ok (.push32 0x0102030405060708090a0b0c0d0e0f101112131415161718191a1b1c1d1e1f20) := by refine ⟨rfl, rfl, rfl, rfl, rfl, rfl, rfl, rfl⟩

theorem test_decode_rejects :
    decode OpcodeMap.default [] = .error .noByte ∧
    decode OpcodeMap.default [0x00, 0x01] = .error (.unrecognized 0x00) ∧
    decode OpcodeMap.default [0x56] = .error (.unrecognized 0x56) ∧
    decode OpcodeMap.default [0x80] = .error (.unrecognized 0x80) := by refine ⟨rfl, rfl, rfl, rfl⟩

/-- A byte that OPCODE_MAP moves away is unrecognized (R76, R77). -/
theorem test_decode_mapped :
    decode { OpcodeMap.default with mul := 0xa0 } [0xa0] = .ok .mul ∧
    decode { OpcodeMap.default with mul := 0xa0 } [0x02] = .error (.unrecognized 0x02) := by refine ⟨rfl, rfl⟩

/-- V3, V4, V6, V9: short immediates are padded on the right; immediate bytes are data. -/
theorem test_decode_immediates :
    decode OpcodeMap.default [0x61, 0x12] = .ok (.push2 0x1200) ∧
    decode OpcodeMap.default [0x60] = .ok (.push1 0) ∧
    decode OpcodeMap.default [0x62, 0x60, 0x01, 0x01] = .ok (.push3 0x600101) ∧
    decode OpcodeMap.default [0x7f, 0x01] = .ok (.push32 (1 <<< 248)) := by refine ⟨rfl, rfl, rfl, rfl⟩

/-- The table numbers bits from the first byte up; bits above nbits are 0. -/
theorem test_decodeTableWord :
    decodeTableWord 8 0x01 = some .add ∧
    decodeTableWord 8 0x61 = some (.push2 0) ∧
    decodeTableWord 24 0x341261 = some (.push2 0x1234) ∧
    decodeTableWord 8 0x0c = none := by decide

theorem test_encode :
    encode OpcodeMap.default (.push2 0x1234) = [0x61, 0x12, 0x34] ∧
    encode OpcodeMap.default .mstore8 = [0x53] ∧
    (encode OpcodeMap.default (.push32 mask)).length = 33 := by decide

/-! ## Results, one handler each -/

theorem test_add :
    stackAfter .add [1, mask] = some [0] ∧
    stackAfter .add [mask, mask] = some [mask - 1] ∧
    stackAfter .add [top, top] = some [0] := by decide

theorem test_sub :
    stackAfter .sub [3, 5] = some [2] ∧
    stackAfter .sub [3, 2] = some [mask] ∧
    stackAfter .sub [mask, 0] = some [1] := by decide

theorem test_mul :
    stackAfter .mul [7, 6] = some [0x2a] ∧
    stackAfter .mul [mask, mask] = some [1] ∧
    stackAfter .mul [1 <<< 128, 1 <<< 128] = some [0] := by decide

theorem test_div :
    stackAfter .div [2, 7] = some [3] ∧
    stackAfter .div [0, 7] = some [0] ∧
    stackAfter .div [6, 2] = some [0] := by decide

theorem test_mod :
    stackAfter .mod [3, 7] = some [1] ∧
    stackAfter .mod [0, 7] = some [0] ∧
    stackAfter .mod [2, mask] = some [1] := by decide

theorem test_lt :
    stackAfter .lt [3, 2] = some [0] ∧
    stackAfter .lt [2, 3] = some [1] ∧
    stackAfter .lt [top - 1, top] = some [1] ∧
    stackAfter .lt [7, 7] = some [0] := by decide

theorem test_gt :
    stackAfter .gt [3, 2] = some [1] ∧
    stackAfter .gt [2, 3] = some [0] ∧
    stackAfter .gt [top, top - 1] = some [1] ∧
    stackAfter .gt [7, 7] = some [0] := by decide

theorem test_eq :
    stackAfter .eq [7, 7] = some [1] ∧
    stackAfter .eq [0, top] = some [0] := by decide

theorem test_and :
    stackAfter .and [0xa, 0xc] = some [8] ∧
    stackAfter .and [top, mask] = some [top] := by decide

theorem test_or :
    stackAfter .or [0xa, 0xc] = some [0xe] ∧
    stackAfter .or [mask, 0] = some [mask] := by decide

theorem test_xor :
    stackAfter .xor [0xa, 0xc] = some [6] ∧
    stackAfter .xor [0x55, 0x55] = some [0] := by decide

theorem test_shl :
    stackAfter .shl [4, 1] = some [0x10] ∧
    stackAfter .shl [0xff, 1] = some [top] ∧
    stackAfter .shl [0x100, 1] = some [0] ∧
    stackAfter .shl [mask, mask] = some [0] := by decide

theorem test_shr :
    stackAfter .shr [4, 0xff] = some [0xf] ∧
    stackAfter .shr [0xff, top] = some [1] ∧
    stackAfter .shr [1, top] = some [0x4000000000000000000000000000000000000000000000000000000000000000] ∧
    stackAfter .shr [0x100, mask] = some [0] := by decide

theorem test_not :
    stackAfter .not [2] = some [mask - 2] ∧
    stackAfter .not [0, 5] = some [mask, 5] := by decide

/-- V16, V13. -/
theorem test_pop :
    stackAfter .pop [3, 2, 1] = some [2, 1] ∧
    next? (exec .pop (at_ [0x50] 1 [])) = some { at_ [0x50] 1 [] with status := .faulted .stackUnderflow } := by decide

theorem test_push0 :
    stackAfter .push0 [7] = some [0, 7] := by decide

/-- S5. -/
theorem test_mstore :
    (next? (exec .mstore (st [0x20, 2]))).map (fun t => (t.stack, t.mem)) = some ([], { cells := [(0x3f, 0x02)], msize := 64 }) := by decide

/-- All 32 bytes are overwritten, the zero ones too; memory does not shrink (R190). -/
theorem test_mstore_overwrites :
    (next? (exec .mstore { st [0, 0x0300] with mem := { cells := [(0x1f, 0x02)], msize := 40 } })).map (·.mem) = some { cells := [(0x1e, 0x03)], msize := 40 } := by decide

/-- "`a = 2^256 - 1` requires `msize = 2^256 + 31`" (R190): the end does not wrap. -/
theorem test_mstore_highest_offset :
    (next? (exec .mstore (st [mask, 1]))).map (fun t => t.mem.msize) = some (2 ^ 256 + 31) := by decide

/-- V20, V21. -/
theorem test_mstore8 :
    (next? (exec .mstore8 (st [0, 0x1234]))).map (fun t => (t.stack, t.mem)) = some ([], { cells := [(0, 0x34)], msize := 32 }) ∧
    (next? (exec .mstore8 (st [5, 0xab]))).map (fun t => t.mem.msize) = some 37 := by decide

/-! ## One step -/

/-- V1. -/
theorem test_step_empty_code :
    next? (step State.reset) = some { State.reset with status := .halted } := by decide

/-- V4. -/
theorem test_step_truncated_push :
    next? (step (at_ [0x61, 0x12] 0 [])) = some (at_ [0x61, 0x12] 3 [0x1200]) := by decide

/-- V12: 0x56 changes nothing but pc. -/
theorem test_step_nop_byte :
    next? (step (at_ [0x60, 0x00, 0x56] 2 [0])) = some (at_ [0x60, 0x00, 0x56] 3 [0]) := by decide

/-- V11. -/
theorem test_step_invalid_opcode :
    next? (step { at_ [0x00, 0x60] 0 [] with cfg := strict }) = some { at_ [0x00, 0x60] 1 [] with cfg := strict, status := .faulted .invalidOpcode } := by decide

/-- V14. -/
theorem test_step_underflow :
    next? (step (at_ [0x60, 0x05, 0x01] 2 [5])) = some { at_ [0x60, 0x05, 0x01] 3 [5] with status := .faulted .stackUnderflow } := by decide

/-- V18. -/
theorem test_step_stack_overflow :
    next? (step { at_ [0x5f, 0x5f, 0x5f] 2 [0, 0] with cfg := stackCap 2 }) = some { at_ [0x5f, 0x5f, 0x5f] 3 [0, 0] with cfg := stackCap 2, status := .faulted .stackOverflow } := by decide

/-- V25. -/
theorem test_step_memory_limit :
    next? (step { at_ [0x60, 0x01, 0x60, 0x01, 0x52] 4 [1, 1] with cfg := memCap 32 }) = some { at_ [0x60, 0x01, 0x60, 0x01, 0x52] 5 [1, 1] with cfg := memCap 32, status := .faulted .memoryLimit } := by decide

/-- The placed word 60 02 is what the first step after reset runs. -/
theorem test_step_placed_word :
    next? (step (State.reset.withFetchWord 16 0x0260)) = some { State.reset.withFetchWord 16 0x0260 with pc := 2, stack := [2] } := by decide

/-- R200, D18. -/
theorem test_fault_codes :
    (FaultKind.stackUnderflow.code = 1 ∧ FaultKind.invalidOpcode.code = 2 ∧ FaultKind.stackOverflow.code = 3 ∧ FaultKind.memoryLimit.code = 4) ∧
    ({ st [] with status := .faulted .memoryLimit }).faultCode = some 4 := by decide

/-- R235, R236, D6. -/
theorem test_observation :
    ({ st [2, 1] with status := .halted, mem := { cells := [(1, 7)], msize := 3 } }).observation = some (.halted, [1, 2], [0, 7, 0]) := by decide

/-! ## Witnesses -/

theorem witness_AddPushesSum :
    (st [3, 2]).stack = 3 :: 2 :: [] ∧
    (st [5]).stack.length < 2 ∧
    (next? (exec .add (st [3, 2]))).map (·.status) = some .running ∧
    next? (exec .add (st [5])) = some { st [5] with status := .faulted .stackUnderflow } := by decide

theorem witness_SubPushesSecondMinusFirst :
    (st [3, 2]).stack = 3 :: 2 :: [] ∧
    (st [5]).stack.length < 2 ∧
    (next? (exec .sub (st [3, 2]))).map (·.status) = some .running ∧
    next? (exec .sub (st [5])) = some { st [5] with status := .faulted .stackUnderflow } := by decide

theorem witness_DivPushesFloorOfSecondByFirst :
    (st [3, 2]).stack = 3 :: 2 :: [] ∧
    (st [5]).stack.length < 2 ∧
    (next? (exec .div (st [3, 2]))).map (·.status) = some .running ∧
    next? (exec .div (st [5])) = some { st [5] with status := .faulted .stackUnderflow } := by decide

theorem witness_MulPushesProduct :
    (st [3, 2]).stack = 3 :: 2 :: [] ∧
    (st [5]).stack.length < 2 ∧
    (next? (exec .mul (st [3, 2]))).map (·.status) = some .running ∧
    next? (exec .mul (st [5])) = some { st [5] with status := .faulted .stackUnderflow } := by decide

theorem witness_ModPushesRemainderOfSecondByFirst :
    (st [3, 2]).stack = 3 :: 2 :: [] ∧
    (st [5]).stack.length < 2 ∧
    (next? (exec .mod (st [3, 2]))).map (·.status) = some .running ∧
    next? (exec .mod (st [5])) = some { st [5] with status := .faulted .stackUnderflow } := by decide

theorem witness_LtPushesFirstBelowSecond :
    (st [3, 2]).stack = 3 :: 2 :: [] ∧
    (st [5]).stack.length < 2 ∧
    (next? (exec .lt (st [3, 2]))).map (·.status) = some .running ∧
    next? (exec .lt (st [5])) = some { st [5] with status := .faulted .stackUnderflow } := by decide

theorem witness_GtPushesFirstAboveSecond :
    (st [3, 2]).stack = 3 :: 2 :: [] ∧
    (st [5]).stack.length < 2 ∧
    (next? (exec .gt (st [3, 2]))).map (·.status) = some .running ∧
    next? (exec .gt (st [5])) = some { st [5] with status := .faulted .stackUnderflow } := by decide

theorem witness_EqPushesEquality :
    (st [3, 2]).stack = 3 :: 2 :: [] ∧
    (st [5]).stack.length < 2 ∧
    (next? (exec .eq (st [3, 2]))).map (·.status) = some .running ∧
    next? (exec .eq (st [5])) = some { st [5] with status := .faulted .stackUnderflow } := by decide

theorem witness_AndPushesBitwiseAnd :
    (st [3, 2]).stack = 3 :: 2 :: [] ∧
    (st [5]).stack.length < 2 ∧
    (next? (exec .and (st [3, 2]))).map (·.status) = some .running ∧
    next? (exec .and (st [5])) = some { st [5] with status := .faulted .stackUnderflow } ∧
    (255 : Nat) < 256 := by decide

theorem witness_OrPushesBitwiseOr :
    (st [3, 2]).stack = 3 :: 2 :: [] ∧
    (st [5]).stack.length < 2 ∧
    (next? (exec .or (st [3, 2]))).map (·.status) = some .running ∧
    next? (exec .or (st [5])) = some { st [5] with status := .faulted .stackUnderflow } ∧
    (255 : Nat) < 256 := by decide

theorem witness_XorPushesBitwiseXor :
    (st [3, 2]).stack = 3 :: 2 :: [] ∧
    (st [5]).stack.length < 2 ∧
    (next? (exec .xor (st [3, 2]))).map (·.status) = some .running ∧
    next? (exec .xor (st [5])) = some { st [5] with status := .faulted .stackUnderflow } ∧
    (255 : Nat) < 256 := by decide

theorem witness_ShlShiftsSecondLeftByFirst :
    (st [3, 2]).stack = 3 :: 2 :: [] ∧
    (st [5]).stack.length < 2 ∧
    (next? (exec .shl (st [3, 2]))).map (·.status) = some .running ∧
    next? (exec .shl (st [5])) = some { st [5] with status := .faulted .stackUnderflow } := by decide

theorem witness_ShrShiftsSecondRightByFirst :
    (st [3, 2]).stack = 3 :: 2 :: [] ∧
    (st [5]).stack.length < 2 ∧
    (next? (exec .shr (st [3, 2]))).map (·.status) = some .running ∧
    next? (exec .shr (st [5])) = some { st [5] with status := .faulted .stackUnderflow } := by decide

theorem witness_ShiftAmountIsTheWholeWord :
    ((st [256, 2]).stack = 256 :: 2 :: [] ∧ 256 ≤ (256 : Word).toNat) ∧
    (st [0, 2]).stack = 0 :: 2 :: [] ∧
    ((st [255, 2]).stack = 255 :: 2 :: [] ∧ (255 : Word).toNat < 256) := by decide

theorem witness_NotPushesComplement :
    (st [2]).stack = 2 :: [] ∧
    (st []).stack = [] ∧
    (255 : Nat) < 256 := by decide

theorem witness_PopDiscardsTop :
    (st [2]).stack = 2 :: [] ∧
    (st []).stack = [] := by decide

theorem witness_Push0PushesZero :
    ({ st [] with cfg := stackCap 1 }).cfg.stackCap ≠ some ({ st [] with cfg := stackCap 1 }).stack.length ∧
    ({ st [4] with cfg := stackCap 1 }).cfg.stackCap = some ({ st [4] with cfg := stackCap 1 }).stack.length := by decide

theorem witness_Push1To8PushTheirImmediates :
    ({ st [] with cfg := stackCap 1 }).cfg.stackCap ≠ some ({ st [] with cfg := stackCap 1 }).stack.length ∧
    ({ st [4] with cfg := stackCap 1 }).cfg.stackCap = some ({ st [4] with cfg := stackCap 1 }).stack.length ∧
    ((at_ [0x60] 0 []).status = .running ∧ (at_ [0x60] 0 []).code[(at_ [0x60] 0 []).pc]? = some 0x60) ∧
    ((at_ [0x67] 0 []).status = .running ∧ (at_ [0x67] 0 []).code[(at_ [0x67] 0 []).pc]? = some 0x67) := by decide

theorem witness_Push9To16PushTheirImmediates :
    ({ st [] with cfg := stackCap 1 }).cfg.stackCap ≠ some ({ st [] with cfg := stackCap 1 }).stack.length ∧
    ({ st [4] with cfg := stackCap 1 }).cfg.stackCap = some ({ st [4] with cfg := stackCap 1 }).stack.length ∧
    ((at_ [0x68] 0 []).status = .running ∧ (at_ [0x68] 0 []).code[(at_ [0x68] 0 []).pc]? = some 0x68) ∧
    ((at_ [0x6f] 0 []).status = .running ∧ (at_ [0x6f] 0 []).code[(at_ [0x6f] 0 []).pc]? = some 0x6f) := by decide

theorem witness_Push17To24PushTheirImmediates :
    ({ st [] with cfg := stackCap 1 }).cfg.stackCap ≠ some ({ st [] with cfg := stackCap 1 }).stack.length ∧
    ({ st [4] with cfg := stackCap 1 }).cfg.stackCap = some ({ st [4] with cfg := stackCap 1 }).stack.length ∧
    ((at_ [0x70] 0 []).status = .running ∧ (at_ [0x70] 0 []).code[(at_ [0x70] 0 []).pc]? = some 0x70) ∧
    ((at_ [0x77] 0 []).status = .running ∧ (at_ [0x77] 0 []).code[(at_ [0x77] 0 []).pc]? = some 0x77) := by decide

theorem witness_Push25To32PushTheirImmediates :
    ({ st [] with cfg := stackCap 1 }).cfg.stackCap ≠ some ({ st [] with cfg := stackCap 1 }).stack.length ∧
    ({ st [4] with cfg := stackCap 1 }).cfg.stackCap = some ({ st [4] with cfg := stackCap 1 }).stack.length ∧
    ((at_ [0x78] 0 []).status = .running ∧ (at_ [0x78] 0 []).code[(at_ [0x78] 0 []).pc]? = some 0x78) ∧
    ((at_ [0x7f] 0 []).status = .running ∧ (at_ [0x7f] 0 []).code[(at_ [0x7f] 0 []).pc]? = some 0x7f) := by decide

theorem witness_ImmediateIsBigEndianAndZeroPadded :
    ((1 : Nat) ≤ 1 ∧ (1 : Nat) ≤ 32 ∧ 1 + (1 - 1) < [(0x60 : Byte), 0x02].length) ∧
    ((1 : Nat) ≤ 32 ∧ (32 : Nat) ≤ 32 ∧ [(0x7f : Byte), 0x01].length ≤ 1 + (2 - 1)) ∧
    (readImm [0x61, 0x12] 1 2).extractLsb' 8 8 = 0x12 := by decide

theorem witness_EveryStepKeepsTheInvariant :
    (at_ [0x61, 0x12] 0 []).Inv ∧
    (next? (step (at_ [0x61, 0x12] 0 []))).isSome = true ∧
    ({ st [1] with cfg := stackCap 1 }).Inv := by decide

theorem witness_StepHaltsOrRunsOneInstruction :
    ((at_ [0x01] 1 []).status = .running ∧ (at_ [0x01] 1 []).code.length ≤ (at_ [0x01] 1 []).pc) ∧
    (at_ [0x01] 0 []).pc < (at_ [0x01] 0 []).code.length ∧
    ((at_ [0x00] 0 []).cfg.invalidOpcode = .nop ∧ ({ at_ [0x00] 0 [] with cfg := strict }).cfg.invalidOpcode = .fault) ∧
    (match decode OpcodeMap.default ((at_ [0x01] 0 []).code.drop 0) with | .ok i => i = .add | .error _ => False) ∧
    (match decode OpcodeMap.default ((at_ [0x00] 0 []).code.drop 0) with | .ok _ => False | .error e => e = .unrecognized 0x00) := by refine ⟨by decide, by decide, by decide, rfl, rfl⟩

theorem witness_OpcodeByteSelectsTheHandler :
    ((at_ [0x60] 0 []).status = .running ∧ (at_ [0x60] 0 []).code[0]? = some 0x60 ∧ (at_ [0x60] 0 []).cfg.opcodes.wellFormed = true) ∧
    ((0x60 : Byte).toNat = 0x5f + 1 ∧ (0x7f : Byte).toNat = 0x5f + 32) ∧
    (Instr.mstore8.immBytes = 0 ∧ (0x53 : Byte) = opcode (at_ [0x53] 0 []).cfg.opcodes .mstore8) ∧
    (at_ [0x00] 0 []).cfg.opcodes.recognizes 0x00 = false ∧
    ((at_ [0x00] 0 []).cfg.invalidOpcode = .nop ∧ ({ at_ [0x00] 0 [] with cfg := strict }).cfg.invalidOpcode = .fault) := by decide

theorem witness_FinalStatusIsKept :
    ({ st [1] with status := .halted }).status ≠ .running ∧
    ({ st [1] with status := .faulted .stackUnderflow }).status ≠ .running := by decide

theorem witness_DefaultUnrecognizedBytesAreTheListed206 :
    ((at_ [0xff] 0 []).status = .running ∧ (at_ [0xff] 0 []).code[0]? = some 0xff ∧ (at_ [0xff] 0 []).cfg.opcodes = OpcodeMap.default) ∧
    (ListedUnrecognized (0xff : Byte).toNat ∧ ListedUnrecognized (0x00 : Byte).toNat ∧ ¬ ListedUnrecognized (0x7f : Byte).toNat) ∧
    ((at_ [0xff] 0 []).cfg.invalidOpcode = .nop ∧ ({ at_ [0xff] 0 [] with cfg := strict }).cfg.invalidOpcode = .fault) := by refine ⟨by decide, ⟨?_, ?_, ?_⟩, by decide⟩ <;> simp [ListedUnrecognized]

theorem witness_FaultEntryChangesOnlyPcAndStatus :
    (at_ [0x50] 0 []).status = .running ∧
    (next? (step (at_ [0x50] 0 []))).map (·.status) = some (.faulted .stackUnderflow) := by decide

/-- The boundary of each condition; the last is R209: underflow wins. -/
theorem witness_InstructionsFaultExactlyAsTabulated :
    (statusAfter .add (st [1]) = some (.faulted .stackUnderflow) ∧ statusAfter .add (st [1, 2]) = some .running) ∧
    statusAfter (.push1 9) { st [4] with cfg := stackCap 1 } = some (.faulted .stackOverflow) ∧
    statusAfter (.push1 9) { st [] with cfg := stackCap 1 } = some .running ∧
    statusAfter .mstore { st [1, 1] with cfg := memCap 32 } = some (.faulted .memoryLimit) ∧
    statusAfter .mstore { st [0, 1] with cfg := memCap 32 } = some .running ∧
    statusAfter .mstore8 { st [0] with cfg := memCap 0 } = some (.faulted .stackUnderflow) := by decide

theorem witness_StackUnderflowIsRaisedAtomically :
    ((st [1]).stack.length < Instr.mstore8.pops ∧ (st []).stack.length < Instr.pop.pops) ∧
    (Instr.mstore8.pops ≤ (st [1, 2]).stack.length ∧ (next? (exec .mstore8 (st [1, 2]))).isSome = true) ∧
    (match decode OpcodeMap.default ((at_ [0x00] 0 []).code.drop 0) with | .ok _ => False | .error _ => True) ∧
    (next? (step (at_ [0x00] 0 []))).isSome = true := by refine ⟨by decide, by decide, trivial, by decide⟩

theorem witness_ReferenceConfigurationFaultsOnlyOnUnderflow :
    ((at_ [0x50] 0 []).cfg.stackCap = none ∧ (at_ [0x50] 0 []).cfg.memCap = none ∧ (at_ [0x50] 0 []).cfg.invalidOpcode = .nop) ∧
    (next? (step (at_ [0x50] 0 []))).map (·.status) = some (.faulted .stackUnderflow) := by decide

theorem witness_StoresWriteTheirBytes :
    ((st [mask, 2]).stack = mask :: 2 :: [] ∧ FitsMemCap (st [mask, 2]) mask) ∧
    (({ st [0, 2] with cfg := memCap 32 }).stack = 0 :: 2 :: [] ∧ FitsMemCap { st [0, 2] with cfg := memCap 32 } 0) := by refine ⟨⟨rfl, ?_⟩, ⟨rfl, ?_⟩⟩ <;> simp [FitsMemCap, st, memCap, State.reset, State.construct, Config.default]

theorem witness_StoresGrowMemoryToOffsetPlus32 :
    ((st [5, 0xab]).stack = 5 :: 0xab :: [] ∧ (st [5, 0xab]).mem.wf = true ∧ FitsMemCap (st [5, 0xab]) 5) ∧
    (st [5, 0xab]).mem.msize ≤ 4 := by refine ⟨⟨rfl, rfl, ?_⟩, by decide⟩; simp [FitsMemCap, st, State.reset, State.construct, Config.default]

theorem witness_StoresEncodeAndStopAtTheirLimits :
    ({ st [1, 1] with cfg := memCap 32 }).stack = 1 :: 1 :: [] ∧
    (({ st [1, 1] with cfg := memCap 32 }).cfg.memCap = some 32 ∧ 32 < (1 : Word).toNat + 32) := by decide

theorem witness_MemoryIsEmptyAtFirstGrowsOnlyAndIsWrittenOnlyByStores :
    (next? (step (at_ [0x52] 0 [0, 2]))).map (fun t => t.mem = (at_ [0x52] 0 [0, 2]).mem) = some False ∧
    ((st [5, 0xab]).mem.wf = true ∧ statusAfter .mstore8 (st [5, 0xab]) = some .running) ∧
    (next? (exec .add (st [1, 2]))).isSome = true ∧
    State.SameButMemory (st [1, 2]) { st [1, 2] with mem := { cells := [(0, 7)], msize := 1 } } := by
  refine ⟨?_, by decide, by decide, rfl⟩
  simp only [Option.map_eq_some_iff]
  refine ⟨_, rfl, ?_⟩
  simp only [eq_iff_iff, iff_false]
  decide

theorem witness_CodeIsSetOnceAndOnlyFetched :
    (next? (step (at_ [0x01] 0 [1, 2]))).isSome = true ∧
    (next? (exec .add (st [1, 2]))).isSome = true := by decide

theorem witness_StepKeepsConfiguration :
    (next? (step { at_ [0x01] 0 [1, 2] with cfg := strict })).isSome = true := by decide

theorem witness_PcAdvancesByTheInstructionLength :
    ((next? (step (at_ [0x7f, 0x01] 0 []))).map (fun t => (t.status, t.pc)) = some (.running, 33) ∧ lengthOfOpcode 0x7f = 33) ∧
    ((next? (step (at_ [0x5f] 0 []))).map (fun t => (t.status, t.pc)) = some (.running, 1) ∧ lengthOfOpcode 0x5f = 1) ∧
    ((at_ [0x01] 1 []).status = .running ∧ (at_ [0x01] 1 []).code.length ≤ (at_ [0x01] 1 []).pc) := by decide

/-- V17. -/
theorem witness_StackEffectMatchesTheTable :
    (next? (exec .add (st [3, 2, 1]))).map (fun t => (t.status, t.stack)) = some (.running, [5, 1]) := by decide

theorem witness_HandlersTouchOnlyTheTopOfTheStack :
    Instr.add.pops ≤ ({ st [3, 2] with cfg := stackCap 4 }).stack.length ∧
    (({ st [3, 2] with cfg := stackCap 4 }).cfg.stackCap ≠ some 2 ∧ ({ st [3, 2] with cfg := stackCap 4 }).cfg.stackCap ≠ some (2 + [(1 : Word)].length)) ∧
    (next? (exec .add { st [3, 2] with cfg := stackCap 4 })).isSome = true := by decide

theorem witness_MemoryContentsNeverInfluenceARun :
    State.SameButMemory (at_ [0x01] 0 [1, 2]) { at_ [0x01] 0 [1, 2] with mem := { cells := [(0, 7)], msize := 1 } } ∧
    (next? (run (at_ [0x01] 0 [1, 2]))).isSome = true := by refine ⟨rfl, by decide⟩

theorem witness_DecodeInvertsEncode :
    OpcodeMap.default.wellFormed = true ∧
    ((Instr.push1 255).wellFormed = true ∧ (Instr.push32 mask).wellFormed = true) := by decide

theorem witness_EncodeInvertsDecode :
    decode OpcodeMap.default [0x61, 0x12] = .ok (.push2 0x1200) := rfl

theorem witness_DivAndModRecombineExactly :
    ((st [2, 7]).stack = 2 :: 7 :: [] ∧ (2 : Word) ≠ 0) ∧
    (st [0, 7]).stack = 0 :: 7 :: [] := by decide

theorem witness_ExactlyOneComparisonHolds :
    (st [2, 7]).stack = 2 :: 7 :: [] := by decide

theorem witness_StoresAreIdempotent :
    (st [0, 2]).mem.wf = true ∧
    ((next? (exec .mstore (st [0, 2]))).bind fun t => next? (exec .mstore { t with stack := (st [0, 2]).stack })).isSome = true ∧
    ((next? (exec .mstore8 (st [0, 2]))).bind fun t => next? (exec .mstore8 { t with stack := (st [0, 2]).stack })).isSome = true := by decide

/-- V22. -/
theorem witness_Mstore8ReplacesOneByteOfAStoredWord :
    ((st [0, 2]).stack = 0 :: 2 :: [] ∧ FitsMemCap (st [0, 2]) 0 ∧ FitsMemCap (st [0, 2]) 31) ∧
    (31 : Word).toNat = (0 : Word).toNat + 31 ∧
    ((next? (exec .mstore (st [0, 2]))).bind fun t => next? (exec .mstore8 { t with stack := [31, 0xff] })).map (fun u => (u.mem.byte? 31, u.mem.byte? 30, u.mem.msize)) = some (some 0xff, some 0, 63) := by
  refine ⟨⟨rfl, ?_, ?_⟩, by decide, by decide⟩ <;> simp [FitsMemCap, st, State.reset, State.construct, Config.default]

theorem witness_SubThenAddRestoresTheMinuend :
    (st [3, 2]).stack = 3 :: 2 :: [] := by decide

theorem witness_HostReadsExistingBytesAndWholeSnapshots :
    (0 : Nat) + 3 ≤ ({ cells := [(1, 7)], msize := 3 } : Memory).msize ∧
    ({ cells := [(1, 7)], msize := 3 } : Memory).msize < 0 + 4 ∧
    ((st [1]).status = .running ∧ 0 < (st [1]).stack.length) := by decide

end Sys2Proof.Tests
end

section
/-! SUPPORT. The statements of 10_state.md: how far pc moves (R24), and that a handler works on the top of the stack only
(R27). -/

namespace Sys2Proof.Proofs

open Sys2Proof Sys2Proof.Machine Sys2Proof.Claims

/-! ## The length that an opcode byte gives -/

theorem lengthOfOpcode_of_isPushByte {op : Byte} (h : isPushByte op = true) :
    lengthOfOpcode op = 1 + (op.toNat - 0x5f) := by
  simp only [isPushByte, Bool.and_eq_true, decide_eq_true_eq] at h
  rw [lengthOfOpcode, if_pos h]
  omega

theorem lengthOfOpcode_of_not_isPushByte {op : Byte} (h : isPushByte op = false) : lengthOfOpcode op = 1 := by
  rw [lengthOfOpcode, if_neg (by simpa [isPushByte] using h)]

theorem immBytes_of_mem_opcodeTable {m : OpcodeMap} {op : Byte} {i : Instr} (h : (op, i) ∈ opcodeTable m) :
    i.immBytes = 0 := by
  have hrows : ∀ p ∈ opcodeTable m, p.2.immBytes = 0 := by simp [opcodeTable, Instr.immBytes]
  exact hrows _ h

/-- A byte 0x60 to 0x7f selects the PUSHN with as many immediate bytes as the byte says (R72). -/
theorem decodeOpcode_of_isPushByte (m : OpcodeMap) {op : Byte} (bytes : List Byte) (h : isPushByte op = true) :
    ∃ i, decodeOpcode m op bytes = some i ∧ i.immBytes = op.toNat - 0x5f := by
  have hop : 0x60 ≤ op.toNat ∧ op.toNat ≤ 0x7f := by simpa [isPushByte] using h
  obtain ⟨i, hi, himm, -, -⟩ :=
    pushInstr_eq_some (op.toNat - 0x5f) (readImm bytes 1 (op.toNat - 0x5f)) (by omega) (by omega)
  exact ⟨i, by rw [decodeOpcode, if_pos h, hi], himm⟩

theorem length_of_decodeOpcode {m : OpcodeMap} {op : Byte} {bytes : List Byte} {i : Instr}
    (h : decodeOpcode m op bytes = some i) : i.length = lengthOfOpcode op := by
  cases hp : isPushByte op with
  | true =>
    obtain ⟨j, hj, himm⟩ := decodeOpcode_of_isPushByte m bytes hp
    obtain rfl : j = i := Option.some.inj (hj.symm.trans h)
    rw [Instr.length, himm, lengthOfOpcode_of_isPushByte hp]
  | false =>
    have hlookup : (opcodeTable m).lookup op = some i := by simpa [decodeOpcode, hp] using h
    rw [Instr.length, immBytes_of_mem_opcodeTable (mem_of_lookup hlookup), lengthOfOpcode_of_not_isPushByte hp]

theorem decodeOpcode_of_decode_cons {m : OpcodeMap} {op : Byte} {tl : List Byte} {i : Instr}
    (h : decode m (op :: tl) = .ok i) : decodeOpcode m op (op :: tl) = some i := by
  cases hd : decodeOpcode m op (op :: tl) with
  | some j => simpa [decode, hd] using h
  | none => simp [decode, hd] at h

/-- The instruction decoded at a code address has the length its opcode byte gives. -/
theorem length_of_decode_drop {m : OpcodeMap} {code : List Byte} {pc : Nat} {op : Byte} {i : Instr}
    (hop : code[pc]? = some op) (h : decode m (code.drop pc) = .ok i) : i.length = lengthOfOpcode op := by
  obtain ⟨tl, htl⟩ := drop_eq_cons hop
  rw [htl] at h
  exact length_of_decodeOpcode (decodeOpcode_of_decode_cons h)

/-- A byte that the decoder rejects has length 1 (R77): it rejects no PUSHn opcode. -/
theorem lengthOfOpcode_of_decode_error {m : OpcodeMap} {code : List Byte} {pc : Nat} {op : Byte} {e : DecodeError}
    (hop : code[pc]? = some op) (h : decode m (code.drop pc) = .error e) : lengthOfOpcode op = 1 := by
  obtain ⟨tl, htl⟩ := drop_eq_cons hop
  rw [htl] at h
  refine lengthOfOpcode_of_not_isPushByte (Bool.eq_false_iff.2 fun hp => ?_)
  obtain ⟨i, hi, -⟩ := decodeOpcode_of_isPushByte m (op :: tl) hp
  simp [decode, hi] at h

/-! ## pc after a step -/

/-- An instruction that stays Running moved pc past its immediate (R24). -/
theorem exec_pc_of_running {i : Instr} {s t : State} (h : exec i s = .next t) (ht : t.status = .running) :
    t.pc = s.pc + i.immBytes := by
  rcases exec_cases_of_next h with hc | ⟨k, -, rfl⟩
  · exact hc.pc
  · cases ht

theorem step_pc_of_running {s t : State} {op : Byte} (hs : s.status = .running) (hop : s.code[s.pc]? = some op)
    (h : step s = .next t) (ht : t.status = .running) : t.pc = s.pc + lengthOfOpcode op := by
  cases step_cases_of_next h with
  | final hfin => exact absurd hs hfin
  | halts _ hpc => exact absurd (lt_length_of_getElem? hop) (Nat.not_lt.2 hpc)
  | runs i _ _ hd hx =>
    rw [exec_pc_of_running hx ht, ← length_of_decode_drop hop hd, Instr.length, fetchNext_pc, Nat.add_assoc]
  | skips e _ _ hd _ hskip => rw [hskip, fetchNext_pc, lengthOfOpcode_of_decode_error hop hd]
  | rejects e _ _ _ _ hrej => subst hrej; cases ht

/-- Settles O40: R24 from what `step` can do, with the decoded length read off the opcode byte (R72) and the halt of
R101. -/
theorem pcAdvancesByTheInstructionLength : Obligations.PcAdvancesByTheInstructionLength :=
  ⟨fun _ _ _ hs hop h ht => step_pc_of_running hs hop h ht,
    fun _ _ _ hop h => length_of_decode_drop hop h,
    fun s hs hpc => ⟨halt s, step_of_atEnd hs hpc, halt_status s, halt_pc s⟩⟩

/-! ## Words under the stack -/

/-- `s` with further Words below the stack. -/
def withBelow (s : State) (below : List Word) : State := { s with stack := s.stack ++ below }

/-- A handler that touches only the top of the stack: what it does on `s`, it does on any stack that continues that of
`s`, leaving the Words below in place. -/
def IgnoresBelow (s : State) (below : List Word) (run : State → Host.Outcome State Fault Refusal) : Prop :=
  ∀ t, run s = .next t → run (withBelow s below) = .next (withBelow t below)

section
variable {s t : State} {a b : Word} {rest below : List Word}

theorem withBelow_stack_of_eq (h : s.stack = rest) : (withBelow s below).stack = rest ++ below := by
  rw [withBelow, h]

/-- It is enough to know what the handler answers on each of the two stacks. -/
theorem IgnoresBelow.of_eq {run : State → Host.Outcome State Fault Refusal} (h : run s = .next t)
    (h' : run (withBelow s below) = .next (withBelow t below)) : IgnoresBelow s below run := by
  intro u hu
  rw [h] at hu
  cases hu
  exact h'

theorem binary_ignoresBelow (f : Word → Word → Word) (h : s.stack = a :: b :: rest) :
    IgnoresBelow s below (binary f) :=
  .of_eq (binary_of_operands f h) (binary_of_operands f (withBelow_stack_of_eq h))

theorem unary_ignoresBelow (g : Word → Word) (h : s.stack = a :: rest) : IgnoresBelow s below (unary g) :=
  .of_eq (unary_of_operand g h) (unary_of_operand g (withBelow_stack_of_eq h))

theorem execPop_ignoresBelow (h : s.stack = a :: rest) : IgnoresBelow s below execPop :=
  .of_eq (execPop_of_operand h) (execPop_of_operand (withBelow_stack_of_eq h))

/-- A store past MEM_CAP is refused by its offset alone, so the fault too is the same over any stack below. -/
theorem store_ignoresBelow (w : Memory → Nat → Word → Memory) (h : s.stack = a :: b :: rest) :
    IgnoresBelow s below (store w) := by
  have h' := withBelow_stack_of_eq (below := below) h
  cases hc : s.exceedsMemCap (a.toNat + 32) with
  | false => exact .of_eq (store_of_operands w h hc) (store_of_operands w h' hc)
  | true => exact .of_eq (store_of_limit w h hc) (store_of_limit w h' hc)

theorem pushImmediate_ignoresBelow {n : Nat} {v : Word} (h : s.stackFull = false)
    (h' : (withBelow s below).stackFull = false) : IgnoresBelow s below (pushImmediate n v) :=
  .of_eq (pushImmediate_of_room h) (pushImmediate_of_room h')

end

/-- Every instruction with its operands on the stack, and room for a push on either stack, ignores what lies below. -/
theorem exec_ignoresBelow {i : Instr} {s : State} {below : List Word} (hpops : i.pops ≤ s.stack.length)
    (hroom : s.stackFull = false) (hroom' : (withBelow s below).stackFull = false) : IgnoresBelow s below (exec i) := by
  cases shape_of i with
  | binary f run row =>
    obtain ⟨a, b, rest, hs⟩ := (two_le_length_iff _).1 (row.1 ▸ hpops)
    exact funext run ▸ binary_ignoresBelow f hs
  | unary g run row =>
    obtain ⟨a, rest, hs⟩ := List.exists_cons_of_length_pos (row.1 ▸ hpops)
    exact funext run ▸ unary_ignoresBelow g hs
  | pop run row =>
    obtain ⟨a, rest, hs⟩ := List.exists_cons_of_length_pos (row.1 ▸ hpops)
    exact funext run ▸ execPop_ignoresBelow hs
  | store w _ run row =>
    obtain ⟨a, b, rest, hs⟩ := (two_le_length_iff _).1 (row.1 ▸ hpops)
    exact funext run ▸ store_ignoresBelow w hs
  | push run _ => exact funext run ▸ pushImmediate_ignoresBelow hroom hroom'

/-- Settles O42: by the shape of the handler (R27); the capacity is read by pushes only, and has room on both stacks. -/
theorem handlersTouchOnlyTheTopOfTheStack : Obligations.HandlersTouchOnlyTheTopOfTheStack := by
  intro i s t below hpops hroom hroom' h
  refine exec_ignoresBelow hpops (stackFull_eq_false_iff.2 hroom) (stackFull_eq_false_iff.2 ?_) t h
  rwa [withBelow, List.length_append]

end Sys2Proof.Proofs
end

section
/-! SUPPORT. The statement of 20_memory.md: which byte of memory a store writes, and which it leaves. -/

namespace Sys2Proof.Proofs

open Sys2Proof Sys2Proof.Machine Sys2Proof.Claims

/-! ## One byte after growth and after a write -/

section
variable {m : Memory} {a x i n : Nat} {v : Word}

/-- `Grow` leaves every byte that already exists (R42). -/
theorem byte?_grow_of_lt (hx : x < m.msize) : (m.grow n).byte? x = m.byte? x := by
  rw [Memory.byte?, Memory.byte?, grow_msize, grow_cells, if_pos hx, if_pos (lt_max_of_lt_left hx)]

theorem byte?_write32_of_written (hi : i < 32) (hx : a + i < m.msize) :
    (m.write32 a v).byte? (a + i) = some (wordByte v i) := by
  rw [Memory.byte?_write32, if_pos hx, if_pos (by omega), Nat.add_sub_cancel_left]

theorem byte?_write32_of_outside (hx : x < a ∨ a + 32 ≤ x) : (m.write32 a v).byte? x = m.byte? x := by
  have hnot : ¬ (a ≤ x ∧ x < a + 32) := by omega
  rw [Memory.byte?_write32, if_neg hnot, Memory.byte?]

theorem byte?_write8_of_written (ha : a < m.msize) : (m.write8 a v).byte? a = some (v.extractLsb' 0 8) := by
  rw [Memory.byte?_write8, if_pos ha, if_pos rfl]

theorem byte?_write8_of_ne (hx : x ≠ a) : (m.write8 a v).byte? x = m.byte? x := by
  rw [Memory.byte?_write8, if_neg hx, Memory.byte?]

end

/-! ## The two stores -/

section
variable {s : State} {a b : Word} {rest : List Word}

/-- A store within MEM_CAP completes: pop both Words, grow to `a + 32`, write (R190, R191). -/
theorem store_of_fits (w : Memory → Nat → Word → Memory) (hs : s.stack = a :: b :: rest) (hfits : FitsMemCap s a) :
    store w s = .next { s with stack := rest, mem := w (s.mem.grow (a.toNat + 32)) a.toNat b } :=
  store_of_operands w hs (exceedsMemCap_eq_false_iff.2 hfits)

theorem exec_mstore_of_fits (hs : s.stack = a :: b :: rest) (hfits : FitsMemCap s a) :
    exec .mstore s = .next { s with stack := rest, mem := (s.mem.grow (a.toNat + 32)).write32 a.toNat b } :=
  store_of_fits Memory.write32 hs hfits

theorem exec_mstore8_of_fits (hs : s.stack = a :: b :: rest) (hfits : FitsMemCap s a) :
    exec .mstore8 s = .next { s with stack := rest, mem := (s.mem.grow (a.toNat + 32)).write8 a.toNat b } :=
  store_of_fits Memory.write8 hs hfits

end

/-- Growth to `a + 32` makes every address that a store at `a` writes exist. -/
theorem lt_msize_grow (m : Memory) {a i : Nat} (hi : i < 32) : a + i < (m.grow (a + 32)).msize :=
  lt_max_of_lt_right (Nat.add_lt_add_left hi a)

/-- Settles O34: the completed store of R190 and R191, read one byte at a time through its write (R43) and its growth
(R42). -/
theorem storesWriteTheirBytes : Obligations.StoresWriteTheirBytes := by
  intro s a b rest hs hfits
  constructor
  · refine ⟨_, exec_mstore_of_fits hs hfits, rfl, rfl, rfl, rfl, rfl, ?_, ?_⟩
    · intro i hi
      exact byte?_write32_of_written hi (lt_msize_grow s.mem hi)
    · intro x hx hout
      exact (byte?_write32_of_outside hout).trans (byte?_grow_of_lt hx)
  · refine ⟨_, exec_mstore8_of_fits hs hfits, rfl, rfl, rfl, rfl, rfl, ?_, ?_⟩
    · exact byte?_write8_of_written (lt_msize_grow s.mem (i := 0) (by omega))
    · intro x hx hne
      exact (byte?_write8_of_ne hne).trans (byte?_grow_of_lt hx)

end Sys2Proof.Proofs
end

section
/-! SUPPORT. The statement of 30_encoding.md: `ReadImm` byte by byte (R73). -/

namespace Sys2Proof.Proofs

open Sys2Proof

theorem getElem?_eq_some_byteOrZero {bytes : List Byte} {i : Nat} (h : i < bytes.length) :
    bytes[i]? = some (byteOrZero bytes i) := by
  rw [byteOrZero, List.getElem?_eq_getElem h, Option.getD_some]

theorem readImm_toNat_lt (code : List Byte) (p : Nat) {n : Nat} (h : n ≤ 32) :
    (readImm code p n).toNat < 2 ^ (8 * n) :=
  toNat_readImm code p n h ▸ readImmValue_lt code p n

/-- The byte of the value with `j` bytes of less weight is the one `j` places before the last byte read: the first
byte is the most significant (R73). -/
theorem readImm_byte (code : List Byte) (p : Nat) {n j : Nat} (hn : n ≤ 32) (hj : j < n) :
    (readImm code p n).extractLsb' (8 * j) 8 = byteOrZero code (p + (n - 1 - j)) := by
  apply BitVec.eq_of_toNat_eq
  rw [BitVec.extractLsb'_toNat, toNat_readImm code p n hn, Nat.shiftRight_eq_div_pow]
  exact readImmValue_byte code p n j hj

/-- Settles O17: byte `k` of the field is the digit of the value with `n - k` bytes below it, and reads as 0 from the end
of the code on. -/
theorem immediateIsBigEndianAndZeroPadded : Obligations.ImmediateIsBigEndianAndZeroPadded := by
  intro code p n _ hn
  refine ⟨readImm_toNat_lt code p hn, fun k hk hkn => ?_⟩
  have hbyte : (readImm code p n).extractLsb' (8 * (n - k)) 8 = byteOrZero code (p + (k - 1)) := by
    rw [readImm_byte code p hn (by omega), show n - 1 - (n - k) = k - 1 by omega]
  rw [hbyte]
  exact ⟨getElem?_eq_some_byteOrZero, byteOrZero_of_ge code _⟩

end Sys2Proof.Proofs
end

section
/-! SUPPORT. The statements of 40_fetch_dispatch.md: which instruction a step runs, and what an unrecognized byte does. -/

namespace Sys2Proof.Proofs

open Sys2Proof Sys2Proof.Machine

variable {s : State} {op : Byte}

/-! ## The opcode byte at pc -/

/-- At a code address the decoder rejects nothing but the byte that stands there (R77). -/
theorem unrecognized_of_decode_drop_error {m : OpcodeMap} {code : List Byte} {pc : Nat} {e : DecodeError}
    (hpc : pc < code.length) (h : decode m (code.drop pc) = .error e) :
    ∃ op, e = .unrecognized op ∧ code[pc]? = some op := by
  have hop : code[pc]? = some code[pc] := List.getElem?_eq_getElem hpc
  obtain ⟨tl, htl⟩ := drop_eq_cons hop
  obtain ⟨op, tl', hcons, he, -⟩ := decode_error_cases h (by simp [htl])
  obtain ⟨rfl, -⟩ := List.cons.inj (htl.symm.trans hcons)
  exact ⟨_, he, hop⟩

theorem decodeAtPc_of_opcode {i : Instr} (hm : s.cfg.opcodes.wellFormed = true) (hi : i.immBytes = 0)
    (hop : s.code[s.pc]? = some (opcode s.cfg.opcodes i)) : decodeAtPc s = .ok i := by
  obtain ⟨tl, htl⟩ := drop_eq_cons hop
  rw [decodeAtPc, htl, decode_opcode _ hm i hi]

theorem decodeAtPc_of_not_recognizes (hop : s.code[s.pc]? = some op) (h : s.cfg.opcodes.recognizes op = false) :
    decodeAtPc s = .error (.unrecognized op) := by
  obtain ⟨tl, htl⟩ := drop_eq_cons hop
  rw [decodeAtPc, htl, decode_of_not_recognizes _ op tl h]

/-! ## The step at an unrecognized byte -/

/-- R139 under each policy: nothing but pc + 1, or InvalidOpcode (R202). -/
theorem step_skips_or_rejects {e : DecodeError} (hs : s.status = .running) (hpc : s.pc < s.code.length)
    (he : decodeAtPc s = .error e) :
    (s.cfg.invalidOpcode = .nop → step s = .next { s with pc := s.pc + 1 }) ∧
    (s.cfg.invalidOpcode = .fault → ∃ t, step s = .next t ∧ t.status = .faulted .invalidOpcode) := by
  obtain ⟨hnop, hfault⟩ := step_unrecognized_by_policy hs hpc he
  exact ⟨hnop, fun hp => ⟨_, hfault hp, rfl⟩⟩

/-! ## What one step runs -/

theorem step_runs_opcode {i : Instr} (hs : s.status = .running) (hm : s.cfg.opcodes.wellFormed = true)
    (hi : i.immBytes = 0) (hop : s.code[s.pc]? = some (opcode s.cfg.opcodes i)) : step s = exec i (fetchNext s) :=
  step_of_decode hs (lt_length_of_getElem? hop) (decodeAtPc_of_opcode hm hi hop)

/-- A byte 0x5f + N runs the PUSHN of its immediate (R103, R106), under any map: the PUSHn range comes first (log 8). -/
theorem step_runs_push {n : Nat} (hs : s.status = .running) (hop : s.code[s.pc]? = some op) (h1 : 1 ≤ n) (h2 : n ≤ 32)
    (hn : op.toNat = 0x5f + n) :
    ∃ i : Instr, i.isPush = true ∧ i.immBytes = n ∧ i.imm = readImm s.code (s.pc + 1) n ∧
      step s = exec i (fetchNext s) := by
  obtain ⟨i, hi, hbytes, himm, hpush⟩ := pushInstr_eq_some n (readImm s.code (s.pc + 1) n) h1 h2
  have hd : decodeAtPc s = .ok i := decode_pushByte s.cfg.opcodes hn h1 h2 hop hi
  exact ⟨i, hpush, hbytes, himm, step_of_decode hs (lt_length_of_getElem? hop) hd⟩

/-- Settles O5: PUSHN by its immediate count, every one-byte row of the table (PUSH0 among them) by its opcode, and the
unrecognized bytes by the policy. -/
theorem opcodeByteSelectsTheHandler : Obligations.OpcodeByteSelectsTheHandler := by
  intro s op hs hop hm
  have hrow : ∀ i : Instr, i.immBytes = 0 → op = opcode s.cfg.opcodes i → step s = exec i (fetchNext s) := by
    rintro i hi rfl
    exact step_runs_opcode hs hm hi hop
  refine ⟨fun n h1 h2 hn => step_runs_push hs hop h1 h2 hn, hrow .push0 rfl, hrow, fun hrec => ?_⟩
  exact step_skips_or_rejects hs (lt_length_of_getElem? hop) (decodeAtPc_of_not_recognizes hop hrec)

/-- Settles O4: the halt (R101), the decoded instruction (R102, R103) and the unrecognized byte (R139), each by what
`step` answers there. -/
theorem stepHaltsOrRunsOneInstruction : Obligations.StepHaltsOrRunsOneInstruction := by
  intro s hs
  refine ⟨step_of_atEnd hs, fun hpc => ⟨fun i hd => step_of_decode hs hpc hd, fun e he => ?_⟩⟩
  exact ⟨unrecognized_of_decode_drop_error hpc he, step_skips_or_rejects hs hpc he⟩

end Sys2Proof.Proofs
end

section
/-! SUPPORT. The statements of 41_stack.md: too few operands are found before anything changes (R142, R201), and POP
(R147). -/

namespace Sys2Proof.Proofs

open Sys2Proof Sys2Proof.Machine Sys2Proof.Claims

variable {i : Instr} {s t : State} {k : FaultKind}

/-! ## Why an instruction or a step ends in a fault -/

/-- An instruction whose reason for a fault holds enters that fault (R206) and does nothing else. -/
theorem exec_of_faultsWith (h : FaultsWith i s k) : exec i s = .next (faultedState k s) := by
  obtain ⟨t, hx, hc | ⟨l, hl, rfl⟩⟩ := exec_cases i s
  · exact absurd h (hc.not_faultsWith k)
  · rwa [h.unique hl]

/-- A step that ends in a fault met an unrecognized byte under the policy Fault, or ran a decoded instruction whose
reason for that fault held after the fetch (R200). -/
theorem step_faulted_cases (hs : s.status = .running) (h : step s = .next t) (ht : t.status = .faulted k) :
    (k = .invalidOpcode ∧ s.cfg.invalidOpcode = .fault) ∨
      ∃ i, decodeAtPc s = .ok i ∧ FaultsWith i (fetchNext s) k := by
  cases step_cases_of_next h with
  | final hfin => exact absurd hs hfin
  | halts _ _ hhalt => subst hhalt; cases ht
  | runs i _ _ hd hx => exact .inr ⟨i, hd, (status_faulted_iff (s := fetchNext s) hs hx k).1 ht⟩
  | skips _ _ _ _ _ hskip =>
    rw [hskip, fetchNext_status, hs] at ht
    cases ht
  | rejects _ _ _ _ hp hrej => subst hrej; cases ht; exact .inl ⟨rfl, hp⟩

/-- Only a decoded instruction underflows the stack, and it pops more Words than the step found there. -/
theorem exists_decoded_of_step_stackUnderflow (hs : s.status = .running) (h : step s = .next t)
    (ht : t.status = .faulted .stackUnderflow) : ∃ i, decodeAtPc s = .ok i ∧ s.stack.length < i.pops := by
  obtain ⟨hk, -⟩ | hdecoded := step_faulted_cases hs h ht
  · cases hk
  · exact hdecoded

/-! ## The column "pops" -/

/-- PUSH0 and every PUSHN pop nothing (R75). -/
theorem pops_of_isPush (h : i.isPush = true) : i.pops = 0 := by
  cases shape_of i with
  | binary _ _ row | unary _ _ row | store _ _ _ row | pop _ row => simp [h] at row
  | push _ row => exact row.1

/-- Settles O10: the reasons for StackUnderflow are exactly too few operands (R201), its entry changes only the status
(R206), and at an unrecognized byte no instruction is decoded that could raise it. -/
theorem stackUnderflowIsRaisedAtomically : Obligations.StackUnderflowIsRaisedAtomically := by
  refine ⟨fun i s hfew => ?_, fun i s t hs henough hx ht => ?_, by decide, rfl, rfl, fun i => pops_of_isPush,
    fun s t e hs he h ht => ?_⟩
  · exact ⟨_, exec_of_faultsWith (k := .stackUnderflow) hfew, rfl, rfl, rfl, rfl⟩
  · have hfew : s.stack.length < i.pops := (status_faulted_iff hs hx .stackUnderflow).1 ht
    exact absurd henough (Nat.not_le.2 hfew)
  · obtain ⟨i, hd, -⟩ := exists_decoded_of_step_stackUnderflow hs h ht
    cases hd.symm.trans he

/-- Settles O33: POP by its two cases, a top Word and the empty stack. -/
theorem popDiscardsTop : Obligations.PopDiscardsTop := by
  refine ⟨fun _ => rfl, fun s a rest hs => execPop_of_operand hs, fun s hs => ?_⟩
  exact ⟨_, execPop_of_underflow hs, rfl, hs, rfl⟩

end Sys2Proof.Proofs
end

section
/-! SUPPORT. The statements of 42_arith.md: ADD, SUB and DIV are the binary template (R144) over their formula on
naturals. -/

namespace Sys2Proof.Proofs

open Sys2Proof Sys2Proof.Machine Sys2Proof.Claims

/-- An instruction that runs the binary template follows the binary rule of its word function's formula: the template
completes on two or more Words (R144) and raises StackUnderflow, changing the status only, on fewer (R142). -/
theorem binaryRule_of_exec_eq_binary {i : Instr} {f : Word → Word → Word} {g : Nat → Nat → Nat}
    (hexec : ∀ s, exec i s = binary f s) (hformula : ∀ a b, f a b = BitVec.ofNat 256 (g a.toNat b.toNat)) :
    BinaryRule i g := by
  refine ⟨fun s a b rest hs => ?_, fun s hfew => ?_⟩
  · rw [hexec, binary_of_operands f hs, hformula]
  · exact ⟨faultedState .stackUnderflow s, (hexec s).trans (binary_of_underflow f hfew), rfl, rfl, rfl⟩

/-- Settles O18: the template over `addWord`, whose formula is the sum mod 2^256 (R150). -/
theorem addPushesSum : Obligations.AddPushesSum :=
  ⟨fun _ => rfl, binaryRule_of_exec_eq_binary (fun _ => rfl) addWord_eq⟩

/-- Settles O19: the template over `subWord`, whose formula wraps exactly when the second-popped Word is the smaller
(R152). -/
theorem subPushesSecondMinusFirst : Obligations.SubPushesSecondMinusFirst :=
  ⟨fun _ => rfl, binaryRule_of_exec_eq_binary (fun _ => rfl) subWord_eq⟩

/-- Settles O20: the template over `divWord`, whose formula is 0 for the divisor 0 and the floor otherwise (R153). -/
theorem divPushesFloorOfSecondByFirst : Obligations.DivPushesFloorOfSecondByFirst :=
  ⟨fun _ => rfl, binaryRule_of_exec_eq_binary (fun _ => rfl) divWord_eq⟩

end Sys2Proof.Proofs
end

section
/-! SUPPORT. The statement of 44_logic.md about NOT: the unary template (R145) over `notWord`, whose formula is `MASK - a`
(R173). -/

namespace Sys2Proof.Proofs

open Sys2Proof Sys2Proof.Machine Sys2Proof.Claims

/-- NOT completes on a non-empty stack with its top Word replaced by `MASK - a` (R173). -/
theorem exec_not_of_operand {s : State} {a : Word} {rest : List Word} (hs : s.stack = a :: rest) :
    exec .not s = .next { s with stack := BitVec.ofNat 256 (2 ^ 256 - 1 - a.toNat) :: rest } :=
  notWord_eq a ▸ unary_of_operand notWord hs

theorem getLsbD_notWord (a : Word) {k : Nat} (hk : k < 256) : (notWord a).getLsbD k = !a.getLsbD k := by
  rw [notWord, BitVec.getLsbD_not, decide_eq_true hk, Bool.true_and]

/-- Settles O32: NOT by its two cases, a top Word and the empty stack; the bits of `MASK - a` are those of `notWord a`. -/
theorem notPushesComplement : Obligations.NotPushesComplement := by
  refine ⟨fun _ => rfl, fun s a rest hs => exec_not_of_operand hs, fun a k hk => ?_, fun s hs => ?_⟩
  · exact notWord_eq a ▸ getLsbD_notWord a hk
  · exact ⟨_, unary_of_underflow notWord hs, rfl, hs, rfl⟩

end Sys2Proof.Proofs
end

section
/-! SUPPORT. The statement of 70_reset_and_hazards.md about `run()` (R233): it takes plain steps up to the first state
that is not Running, and R240 is why there is one within its bound. -/

namespace Sys2Proof.Proofs

open Sys2Proof Sys2Proof.Machine

variable {s t u : State} {k n : Nat}

/-! ## How a step moves towards the end of the code -/

/-- A completed instruction keeps the code and does not move pc back; a fault entry changes neither. -/
theorem exec_code_and_le_pc {i : Instr} (h : exec i s = .next t) : t.code = s.code ∧ s.pc ≤ t.pc := by
  rcases exec_cases_of_next h with hc | ⟨k, -, rfl⟩
  · exact ⟨hc.code, hc.pc ▸ Nat.le_add_right _ _⟩
  · exact ⟨rfl, le_rfl⟩

/-- A step between two Running states leaves less code ahead of pc (R24, R240): it did not halt, so it fetched. -/
theorem step_codeLeft_lt (hs : s.status = .running) (h : step s = .next t) (ht : t.status = .running) :
    t.code.length - t.pc < s.code.length - s.pc := by
  cases step_cases_of_next h with
  | final hfin => exact absurd hs hfin
  | halts _ _ hhalt => subst hhalt; cases ht
  | runs i _ hpc _ hx =>
    obtain ⟨hcode, hle⟩ := exec_code_and_le_pc hx
    rw [fetchNext_pc] at hle
    rw [hcode, fetchNext_code]
    omega
  | skips e _ hpc _ _ hskip => rw [hskip, fetchNext_code, fetchNext_pc]; omega
  | rejects e _ _ _ _ hrej => subst hrej; cases ht

/-! ## `run()` and the plain steps, one step at a time -/

theorem runSteps_of_final (h : s.Final) : runSteps (n + 1) s = .next s := by
  cases hs : s.status with
  | running => exact absurd hs h
  | halted | faulted _ => simp only [runSteps, hs]

theorem runSteps_succ_of_running (hs : s.status = .running) (h : step s = .next u) :
    runSteps (n + 1) s = runSteps n u := by simp only [runSteps, hs, h]

theorem core_run_succ (h : step s = .next u) :
    Host.Core.run Sys2Proof.core (k + 1) s = Host.Core.run Sys2Proof.core k u := by
  have hcore : Host.Core.step Sys2Proof.core s = .next u := h
  simp only [Host.Core.run, hcore]

/-- `k` plain steps from `s` give `t`, and `t` is the first state on the way that is not Running. -/
structure FirstFinal (k : Nat) (s t : State) : Prop where
  reached : Host.Core.run Sys2Proof.core k s = .next t
  final : t.Final
  before : ∀ j < k, ∃ u : State, Host.Core.run Sys2Proof.core j s = .next u ∧ u.status = .running

theorem firstFinal_zero (h : s.Final) : FirstFinal 0 s s :=
  ⟨rfl, h, fun _ hj => absurd hj (Nat.not_lt_zero _)⟩

theorem firstFinal_succ (hs : s.status = .running) (h : step s = .next u) (hu : FirstFinal k u t) :
    FirstFinal (k + 1) s t := by
  refine ⟨(core_run_succ h).trans hu.reached, hu.final, fun j hj => ?_⟩
  cases j with
  | zero => exact ⟨s, rfl, hs⟩
  | succ j =>
    rw [core_run_succ h]
    exact hu.before j (Nat.lt_of_succ_lt_succ hj)

/-- With more steps allowed than there is code ahead of pc, the steps of `run()` end in the first state that is not
Running. -/
theorem exists_runSteps_firstFinal (n : Nat) (s : State) (hn : s.status = .running → s.code.length - s.pc < n) :
    ∃ k t, runSteps n s = .next t ∧ FirstFinal k s t := by
  induction n generalizing s with
  | zero =>
    have hs : s.Final := fun hs => absurd (hn hs) (Nat.not_lt_zero _)
    exact ⟨0, s, rfl, firstFinal_zero hs⟩
  | succ n ih =>
    by_cases hs : s.status = .running
    · obtain ⟨u, hstep, -⟩ := step_cases s
      have hu : u.status = .running → u.code.length - u.pc < n := fun hu =>
        Nat.lt_of_lt_of_le (step_codeLeft_lt hs hstep hu) (Nat.le_of_lt_succ (hn hs))
      obtain ⟨k, t, hrun, hfirst⟩ := ih u hu
      exact ⟨k + 1, t, (runSteps_succ_of_running hs hstep).trans hrun, firstFinal_succ hs hstep hfirst⟩
    · exact ⟨0, s, runSteps_of_final hs, firstFinal_zero hs⟩

/-! ## The observation -/

theorem observation_of_final (h : t.Final) :
    t.observation = some (t.status, t.stackSnapshot, t.memorySnapshot) := by
  cases hs : t.status with
  | running => exact absurd hs h
  | halted | faulted _ => simp only [State.observation, hs]

/-- Settles O43: the bound of `run()` is more than the code ahead of pc, so the first final state lies within it
(R240, log 17); there the observation is the triple of R236 (D7, log 18). -/
theorem runStepsUntilTheFirstFinalState : Obligations.RunStepsUntilTheFirstFinalState := by
  intro s
  obtain ⟨k, t, hrun, hreached, hfinal, hbefore⟩ :=
    exists_runSteps_firstFinal (s.code.length - s.pc + 1) s fun _ => Nat.lt_succ_self _
  exact ⟨k, t, hrun, hfinal, hreached, hbefore, observation_of_final hfinal⟩

end Sys2Proof.Proofs
end

section
/-! SUPPORT. The statements of 30_encoding.md about the decoder and the encoder: each undoes the other, and with the
default opcode values the decoder reads exactly the bytes that R77 does not list. -/

namespace Sys2Proof.Proofs

open Sys2Proof Sys2Proof.Machine Sys2Proof.Claims

variable {m : OpcodeMap} {i : Instr} {op : Byte} {bytes tl : List Byte} {n k : Nat} {v : Word}

/-! ## The encoding of an instruction with, and without, an immediate -/

/-- An instruction with an immediate is the PUSHN of its count (R75), and its opcode byte is `0x5f + N` under every map
(R79). -/
theorem pushInstr_and_opcode_of_immBytes_ne_zero (m : OpcodeMap) (h : i.immBytes ≠ 0) :
    pushInstr i.immBytes i.imm = some i ∧ (opcode m i).toNat = 0x5f + i.immBytes := by
  cases i
  case add | mul | sub | div | mod | lt | gt | eq | and | or | xor | not | shl | shr | pop | mstore | mstore8 | push0 =>
    exact absurd rfl h
  all_goals exact ⟨rfl, rfl⟩

theorem opcode_eq_of_toNat (m : OpcodeMap) (h1 : 1 ≤ n) (hi : i.immBytes = n) (hop : op.toNat = 0x5f + n) :
    opcode m i = op := by
  apply BitVec.eq_of_toNat_eq
  rw [(pushInstr_and_opcode_of_immBytes_ne_zero m (by omega)).2, hi, hop]

theorem encode_of_immBytes_eq_zero (m : OpcodeMap) (h : i.immBytes = 0) : encode m i = [opcode m i] := by
  rw [encode, h, immBytesOf]

theorem getElem?_immBytesOf (v : Word) (h : k < n) : (immBytesOf v n)[k]? = some (v.extractLsb' (8 * (n - 1 - k)) 8) := by
  rw [getElem?_eq_some_byteOrZero (by rwa [length_immBytesOf]), byteOrZero_immBytesOf v n k h]

/-! ## Decoding what the encoder wrote -/

/-- The immediate of a well-formed instruction is read back from its encoding in full (R79, R73). -/
theorem readImm_encode (m : OpcodeMap) (tail : List Byte) (hi : i.wellFormed = true) :
    readImm (encode m i ++ tail) 1 i.immBytes = i.imm := by
  have hlt : i.imm.toNat < 2 ^ (8 * i.immBytes) := by simpa [Instr.wellFormed] using hi
  apply BitVec.eq_of_toNat_eq
  rw [toNat_readImm _ _ _ (immBytes_le i), encode, readImmValue_immBytesOf, Nat.mod_eq_of_lt hlt]

/-- Settles O46: an instruction without an immediate is found by its opcode byte, a PUSHN by its count, with the value
read back. -/
theorem decodeInvertsEncode : Obligations.DecodeInvertsEncode := by
  intro m i tail hm hi
  by_cases h0 : i.immBytes = 0
  · rw [encode_of_immBytes_eq_zero m h0, List.singleton_append, decode_opcode m hm i h0]
  · obtain ⟨hpush, hop⟩ := pushInstr_and_opcode_of_immBytes_ne_zero m h0
    rw [← readImm_encode m tail hi] at hpush
    exact decode_pushByte m (pc := 0) hop (Nat.one_le_iff_ne_zero.2 h0) (immBytes_le i) rfl hpush

/-! ## Encoding what the decoder read -/

/-- A format O row of the table is an instruction without an immediate, under its own opcode byte (R75). -/
theorem row_of_mem_opcodeTable (h : (op, i) ∈ opcodeTable m) : opcode m i = op ∧ i.immBytes = 0 ∧ i.imm = 0 := by
  have hrows : ∀ p ∈ opcodeTable m, opcode m p.2 = p.1 ∧ p.2.immBytes = 0 ∧ p.2.imm = 0 := by
    simp [opcodeTable, opcode, Instr.immBytes, Instr.imm]
  exact hrows _ h

/-- What an opcode byte selects (R103): the PUSHN of its count with the value read, or a row of the table. Either way the
instruction has that opcode byte, and its immediate is `ReadImm` over as many bytes as it has. -/
theorem opcode_and_imm_of_decodeOpcode (h : decodeOpcode m op bytes = some i) :
    opcode m i = op ∧ i.imm = readImm bytes 1 i.immBytes := by
  cases hp : isPushByte op with
  | true =>
    have hop : 0x60 ≤ op.toNat ∧ op.toNat ≤ 0x7f := by simpa [isPushByte] using hp
    obtain ⟨j, hj, hbytes, himm, -⟩ :=
      pushInstr_eq_some (op.toNat - 0x5f) (readImm bytes 1 (op.toNat - 0x5f)) (by omega) (by omega)
    rw [decodeOpcode, if_pos hp, hj] at h
    obtain rfl : j = i := Option.some.inj h
    exact ⟨opcode_eq_of_toNat m (by omega) hbytes (by omega), by rw [himm, hbytes]⟩
  | false =>
    have hlookup : (opcodeTable m).lookup op = some i := by simpa [decodeOpcode, hp] using h
    obtain ⟨hop, hbytes, himm⟩ := row_of_mem_opcodeTable (mem_of_lookup hlookup)
    exact ⟨hop, by rw [himm, hbytes]; rfl⟩

theorem wellFormed_of_imm_eq_readImm {p : Nat} (h : i.imm = readImm bytes p i.immBytes) : i.wellFormed = true := by
  rw [Instr.wellFormed, decide_eq_true_eq, h]
  exact readImm_toNat_lt bytes p (immBytes_le i)

/-- Byte `k` of the immediate field is the byte that `ReadImm` read there, 0 past the end (R71, R73). -/
theorem getElem?_immBytesOf_readImm (bytes : List Byte) (p : Nat) (hn : n ≤ 32) (hk : k < n) :
    (immBytesOf (readImm bytes p n) n)[k]? = some (byteOrZero bytes (p + k)) := by
  rw [getElem?_immBytesOf _ hk, readImm_byte bytes p hn (by omega), show n - 1 - (n - 1 - k) = k by omega]

/-- Settles O47: the decoded instruction has the opcode byte read and the immediate read, and the encoder writes both back
byte by byte. -/
theorem encodeInvertsDecode : Obligations.EncodeInvertsDecode := by
  intro m bytes i h
  cases bytes with
  | nil => cases h
  | cons op tl =>
    obtain ⟨hop, himm⟩ := opcode_and_imm_of_decodeOpcode (decodeOpcode_of_decode_cons h)
    refine ⟨List.cons_ne_nil _ _, wellFormed_of_imm_eq_readImm himm, fun k hk => ?_⟩
    cases k with
    | zero => rw [encode, hop]; rfl
    | succ k =>
      have hk : k < i.immBytes := by rw [Instr.length] at hk; omega
      rw [encode, List.getElem?_cons_succ, himm, getElem?_immBytesOf_readImm _ 1 (immBytes_le i) hk, byteOrZero,
        Nat.add_comm]

/-! ## Which bytes the decoder reads -/

/-- A recognized byte is read, whatever follows it (R75). -/
theorem decode_of_recognizes (tl : List Byte) (h : m.recognizes op = true) : ∃ i, decode m (op :: tl) = .ok i := by
  have hsome : ∃ i, decodeOpcode m op (op :: tl) = some i := by
    cases hp : isPushByte op with
    | true => exact (decodeOpcode_of_isPushByte m (op :: tl) hp).imp fun _ hi => hi.1
    | false =>
      have hmem : op ∈ fixedOpcodes ++ m.bytes := by
        simpa [OpcodeMap.recognizes, hp] using h
      rw [decodeOpcode, if_neg (by simp [hp]), ← Option.ne_none_iff_exists', Ne, List.lookup_eq_none_iff]
      intro hnone
      obtain ⟨row, hrow, rfl⟩ := List.mem_map.1 (show op ∈ (opcodeTable m).map Prod.fst from hmem)
      simpa using hnone row hrow
  obtain ⟨i, hi⟩ := hsome
  exact ⟨i, by simp only [decode, hi]⟩

/-- The 206 bytes that R77 lists are the ones the default map does not recognize (D1, log 7). -/
theorem listedUnrecognized_iff (op : Byte) :
    ListedUnrecognized op.toNat ↔ OpcodeMap.default.recognizes op = false := by
  have hlt := op.isLt
  simp only [ListedUnrecognized, OpcodeMap.recognizes, isPushByte, fixedOpcodes, OpcodeMap.bytes, OpcodeMap.default,
    Bool.or_eq_false_iff, Bool.and_eq_false_iff, decide_eq_false_iff_not, List.contains_eq_mem, List.mem_cons,
    List.not_mem_nil, or_false, not_or, ← BitVec.toNat_inj, BitVec.reduceToNat]
  omega

/-- Settles O7: a listed byte is rejected by the decoder and goes by the policy (D2), any other is read. -/
theorem defaultUnrecognizedBytesAreTheListed206 : Obligations.DefaultUnrecognizedBytesAreTheListed206 := by
  intro s op hs hop hm
  have hpc := lt_length_of_getElem? hop
  have hlisted : ListedUnrecognized op.toNat → decodeAtPc s = .error (.unrecognized op) := fun hl =>
    decodeAtPc_of_not_recognizes hop (hm ▸ (listedUnrecognized_iff op).1 hl)
  refine ⟨fun hl => (step_unrecognized_by_policy hs hpc (hlisted hl)).1, fun hl hp => ?_, fun hl => ?_⟩
  · exact ⟨_, (step_unrecognized_by_policy hs hpc (hlisted hl)).2 hp, rfl, rfl, rfl⟩
  · have hrec : s.cfg.opcodes.recognizes op = true := by
      rw [hm]
      exact Bool.eq_true_of_not_eq_false fun h => hl ((listedUnrecognized_iff op).2 h)
    obtain ⟨tl, htl⟩ := drop_eq_cons hop
    obtain ⟨i, hi⟩ := decode_of_recognizes tl hrec
    rw [htl]
    exact ⟨i, hi, step_of_decode hs hpc (by rw [decodeAtPc, htl, hi])⟩

/-- Settles O48: the decoder evaluated on the written-out bytes; that it rejects 00 by name is log 14. -/
theorem specWordsDecodeToTheirInstructions : Obligations.SpecWordsDecodeToTheirInstructions :=
  ⟨rfl, rfl, rfl, rfl, rfl, rfl, rfl, rfl, rfl, rfl, rfl⟩

end Sys2Proof.Proofs
end

section
/-! SUPPORT. The statements of 20_memory.md and 46_memory_ops.md about the two stores: how far they grow memory, what a
second store does to the first, and where they stop; and what the host reads of memory (R51, R52, R235). -/

namespace Sys2Proof.Proofs

open Sys2Proof Sys2Proof.Machine Sys2Proof.Claims

/-! ## Memory after a store -/

section
variable {m : Memory} {w : Memory → Nat → Word → Memory} {a x n : Nat} {v : Word}

/-- The two writes of the model: what is true of both is said of either. -/
def IsWrite (w : Memory → Nat → Word → Memory) : Prop := w = Memory.write32 ∨ w = Memory.write8

theorem isWrite_write32 : IsWrite Memory.write32 := .inl rfl

theorem isWrite_write8 : IsWrite Memory.write8 := .inr rfl

theorem byte?_of_msize_le (h : m.msize ≤ x) : m.byte? x = none := if_neg (Nat.not_lt.2 h)

/-- A byte that growth created reads as 0 (R42). -/
theorem byte?_grow_of_created (hm : m.wf = true) (hx : m.msize ≤ x) (hn : x < n) : (m.grow n).byte? x = some 0 := by
  rw [Memory.byte?, grow_msize, grow_cells, if_pos (lt_max_of_lt_right hn), m.cellAt_of_msize_le hm hx]

theorem IsWrite.msize (hw : IsWrite w) : (w m a v).msize = m.msize := by
  obtain rfl | rfl := hw
  · exact write32_msize m a v
  · exact write8_msize m a v

theorem IsWrite.wf (hw : IsWrite w) (ha : a + 32 ≤ m.msize) (hm : m.wf = true) : (w m a v).wf = true := by
  obtain rfl | rfl := hw
  · exact m.wf_write32 a v ha hm
  · exact m.wf_write8 a v (by omega) hm

/-- Writing the same value at the same address again changes no byte. -/
theorem IsWrite.cellAt_write_of_cellAt_eq {m' : Memory} (hw : IsWrite w)
    (h : ∀ y, cellAt m'.cells y = cellAt (w m a v).cells y) :
    cellAt (w m' a v).cells x = cellAt (w m a v).cells x := by
  obtain rfl | rfl := hw
  · rw [cellAt_write32 m', h, cellAt_write32 m]
    split <;> rfl
  · rw [cellAt_write8 m', h, cellAt_write8 m]
    split <;> rfl

/-- What a store at `a` makes of memory: grown to `a + 32`, then written (R190, R191). -/
def storeMem (w : Memory → Nat → Word → Memory) (m : Memory) (a : Nat) (v : Word) : Memory := w (m.grow (a + 32)) a v

theorem storeMem_msize (hw : IsWrite w) : (storeMem w m a v).msize = max m.msize (a + 32) := hw.msize

theorem storeMem_wf (hw : IsWrite w) (hm : m.wf = true) : (storeMem w m a v).wf = true :=
  hw.wf (le_max_right _ _) (m.wf_grow _ hm)

/-- From canonical memory, storing twice is storing once: the second growth and the second write find everything in
place (R46). -/
theorem storeMem_idem (hw : IsWrite w) (hm : m.wf = true) : storeMem w (storeMem w m a v) a v = storeMem w m a v := by
  have hwf := storeMem_wf (a := a) (v := v) hw hm
  refine Memory.ext_of_wf _ _ (storeMem_wf hw hwf) hwf ?_ fun x => hw.cellAt_write_of_cellAt_eq fun _ => rfl
  simp only [storeMem_msize hw, Nat.max_assoc, Nat.max_self]

theorem byte?_storeMem_write32_of_created (hm : m.wf = true) (hx : m.msize ≤ x) (hlt : x < max m.msize (a + 32))
    (hout : x < a ∨ a + 32 ≤ x) : (storeMem Memory.write32 m a v).byte? x = some 0 := by
  rw [storeMem, byte?_write32_of_outside hout]
  exact byte?_grow_of_created hm hx (by omega)

theorem byte?_storeMem_write8_of_created (hm : m.wf = true) (hx : m.msize ≤ x) (hlt : x < max m.msize (a + 32))
    (hne : x ≠ a) : (storeMem Memory.write8 m a v).byte? x = some 0 := by
  rw [storeMem, byte?_write8_of_ne hne]
  exact byte?_grow_of_created hm hx (by omega)

/-- A byte of a stored Word that a later 1-byte store does not address reads as the Word's store wrote it. -/
theorem byte?_storeMem_write8_after_write32 {o i : Nat} {c : Word} (hi : i < 32) (hne : a + i ≠ o) :
    (storeMem Memory.write8 (storeMem Memory.write32 m a v) o c).byte? (a + i) = some (wordByte v i) := by
  have hlt : a + i < (m.grow (a + 32)).msize := lt_msize_grow m hi
  rw [storeMem, byte?_write8_of_ne hne, byte?_grow_of_lt (m := storeMem Memory.write32 m a v) hlt]
  exact byte?_write32_of_written hi hlt

end

/-! ## The two stores -/

section
variable {i : Instr} {s t u : State} {a b : Word} {rest : List Word}

/-- MSTORE and MSTORE8 are the store template over one of the two writes. -/
theorem exists_write_of_mem_stores (hi : i ∈ [Instr.mstore, .mstore8]) :
    ∃ w, IsWrite w ∧ ∀ s, exec i s = store w s := by
  obtain rfl | rfl : i = .mstore ∨ i = .mstore8 := by simpa using hi
  · exact ⟨_, isWrite_write32, fun _ => rfl⟩
  · exact ⟨_, isWrite_write8, fun _ => rfl⟩

theorem isStore_of_mem_stores (hi : i ∈ [Instr.mstore, .mstore8]) : i.isStore = true := by
  obtain rfl | rfl : i = .mstore ∨ i = .mstore8 := by simpa using hi
  · rfl
  · rfl

/-- What a completed store made of memory, and from which operands. -/
theorem exists_storeMem_of_completes (h : Completes i s t) (hi : i.isStore = true) :
    ∃ w a b rest, IsWrite w ∧ s.stack = a :: b :: rest ∧ s.exceedsMemCap (a.toNat + 32) = false ∧
      t.mem = storeMem w s.mem a.toNat b := by
  obtain ⟨a, b, rest, hs, hcap, hmem | hmem⟩ := h.stored hi
  · exact ⟨_, a, b, rest, isWrite_write32, hs, hcap, hmem⟩
  · exact ⟨_, a, b, rest, isWrite_write8, hs, hcap, hmem⟩

/-- Whether an instruction faults, and how, is read off the stack and the capacities (R200). -/
theorem faultsWith_of_stack_eq {k : FaultKind} (hstack : t.stack = s.stack) (hcfg : t.cfg = s.cfg)
    (h : FaultsWith i s k) : FaultsWith i t k := by
  cases k with
  | stackUnderflow => rwa [FaultsWith, hstack]
  | invalidOpcode => exact h
  | stackOverflow => rwa [FaultsWith, State.stackFull, hstack, hcfg]
  | memoryLimit => simpa only [FaultsWith, State.exceedsMemCap, hstack, hcfg] using h

/-- Settles O51: where the first store completed the second does too, and storing twice is storing once; where the first
raised a fault the second raises it again, and neither touched memory. -/
theorem storesAreIdempotent : Obligations.StoresAreIdempotent := by
  intro i hi s t u hm ht hu
  obtain ⟨w, hw, hrun⟩ := exists_write_of_mem_stores hi
  rcases exec_cases_of_next ht with hc | ⟨k, hk, rfl⟩
  · obtain ⟨a, b, rest, hs, hcap, -⟩ := hc.stored (isStore_of_mem_stores hi)
    cases ht.symm.trans ((hrun s).trans (store_of_operands w hs hcap))
    cases hu.symm.trans ((hrun _).trans (store_of_operands w hs hcap))
    exact storeMem_idem hw hm
  · cases hu.symm.trans (exec_of_faultsWith (faultsWith_of_stack_eq rfl rfl hk))
    rfl

/-- Settles O35: the completed store of each (R190, R191), its growth (R42, C5) and the zero bytes it created. -/
theorem storesGrowMemoryToOffsetPlus32 : Obligations.StoresGrowMemoryToOffsetPlus32 := by
  intro s a b rest hs hm hfits
  refine ⟨⟨_, exec_mstore_of_fits hs hfits, rfl, fun x hx hlt => ?_, fun x => byte?_of_msize_le⟩,
    ⟨_, exec_mstore8_of_fits hs hfits, rfl, fun x hx hlt hne => ?_, fun x => byte?_of_msize_le⟩⟩
  · exact byte?_storeMem_write32_of_created hm hx (by omega) (.inl hlt)
  · exact byte?_storeMem_write8_of_created hm hx (by omega) hne

/-- Settles O52: the byte at `a + j` is the one the second store writes (R43); another byte of the Word is not, and the
second growth leaves it (R42), so it reads as the first store wrote it. -/
theorem mstore8ReplacesOneByteOfAStoredWord : Obligations.Mstore8ReplacesOneByteOfAStoredWord := by
  intro s t u a b o c rest rest' j hs hfits hj ho hfits' ht hu
  cases ht.symm.trans (exec_mstore_of_fits hs hfits)
  cases hu.symm.trans (exec_mstore8_of_fits rfl hfits')
  refine ⟨?_, fun i hi hne => ?_⟩
  · rw [← ho]
    exact byte?_write8_of_written (lt_msize_grow _ (i := 0) (by omega))
  · exact byte?_storeMem_write8_after_write32 hi (by omega)

/-- Settles O36: each store past MEM_CAP takes the limit case of the template, whose entry changes the status only
(R204, R206). -/
theorem storesEncodeAndStopAtTheirLimits : Obligations.StoresEncodeAndStopAtTheirLimits := by
  refine ⟨fun _ => rfl, ⟨fun _ => rfl, rfl⟩, fun i hi c s a b rest hs hcap hlt => ?_⟩
  obtain ⟨w, -, hrun⟩ := exists_write_of_mem_stores hi
  exact ⟨_, (hrun s).trans (store_of_limit w hs (exceedsMemCap_iff.2 ⟨c, hcap, hlt⟩)), rfl, rfl, rfl, rfl⟩

end

/-! ## What the host reads -/

theorem read?_of_le {m : Memory} {addr n : Nat} (h : addr + n ≤ m.msize) :
    m.read? addr n = some ((List.range n).map fun i => cellAt m.cells (addr + i)) := if_pos h

theorem read?_of_lt {m : Memory} {addr n : Nat} (h : m.msize < addr + n) : m.read? addr n = none :=
  if_neg (Nat.not_le.2 h)

/-- The bytes of MemRead are the bytes of memory, in order (R51). -/
theorem exists_read?_of_le {m : Memory} {addr n : Nat} (h : addr + n ≤ m.msize) :
    ∃ l, m.read? addr n = some l ∧ l.length = n ∧ ∀ i < n, l[i]? = m.byte? (addr + i) := by
  refine ⟨_, read?_of_le h, by rw [List.length_map, List.length_range], fun i hi => ?_⟩
  have hlt : addr + i < m.msize := by omega
  rw [List.getElem?_map, List.getElem?_range hi, Option.map_some, Memory.byte?, if_pos hlt]

theorem read?_zero_msize (s : State) : s.mem.read? 0 s.mem.msize = some s.memorySnapshot := by
  rw [read?_of_le (Nat.zero_add _).le, State.memorySnapshot]
  simp only [Nat.zero_add]

theorem length_memorySnapshot (s : State) : s.memorySnapshot.length = s.mem.msize := by
  rw [State.memorySnapshot, List.length_map, List.length_range]

/-- Settles O54: MemRead on either side of msize (R51, R52), the memory snapshot as MemRead of all of memory, and the
stack snapshot as the stack reversed (R235, D6). -/
theorem hostReadsExistingBytesAndWholeSnapshots : Obligations.HostReadsExistingBytesAndWholeSnapshots := by
  refine ⟨fun m addr n => ⟨exists_read?_of_le, read?_of_lt⟩, fun s => ⟨read?_zero_msize s, List.length_reverse, ?_, ?_⟩⟩
  · intro k hk
    exact List.getElem?_reverse hk
  · intro hs
    simp only [State.observation, hs]

end Sys2Proof.Proofs
end

section
/-! SUPPORT. What no instruction reads: the contents of memory (R51) and the code buffer (R21). Two states that an
instruction cannot tell apart stay so, step by step. -/

namespace Sys2Proof.Proofs

open Sys2Proof Sys2Proof.Machine

variable {R : State → State → Prop} {i : Instr} {s s' t t' : State}

/-! ## One instruction on two related states -/

/-- A relation that instructions keep: related states agree on what a handler reads, the configuration and the stack, and
stay related under everything a handler does. -/
structure Unread (R : State → State → Prop) : Prop where
  cfg : ∀ {s s'}, R s s' → s'.cfg = s.cfg
  stack : ∀ {s s'}, R s s' → s'.stack = s.stack
  setStack : ∀ {s s'} (l : List Word), R s s' → R { s with stack := l } { s' with stack := l }
  setMem : ∀ {s s'} (f : Memory → Memory), R s s' → R { s with mem := f s.mem } { s' with mem := f s'.mem }
  advance : ∀ {s s'} (n : Nat), R s s' → R { s with pc := s.pc + n } { s' with pc := s'.pc + n }
  fault : ∀ {s s'} (k : FaultKind), R s s' → R (faultedState k s) (faultedState k s')

/-- An instruction that completes on a state completes on a related one with related results. -/
theorem exec_related_of_completes (hU : Unread R) (hR : R s s') (hc : Completes i s t) (h : exec i s = .next t) :
    ∃ t', exec i s' = .next t' ∧ R t t' := by
  have hstack := hU.stack hR
  cases shape_of i with
  | binary f run row =>
    obtain ⟨a, b, rest, hs⟩ := (two_le_length_iff _).1 (row.1 ▸ hc.operands)
    cases h.symm.trans ((run s).trans (binary_of_operands f hs))
    exact ⟨_, (run s').trans (binary_of_operands f (hstack.trans hs)), hU.setStack _ hR⟩
  | unary g run row =>
    obtain ⟨a, rest, hs⟩ := List.exists_cons_of_length_pos (row.1 ▸ hc.operands)
    cases h.symm.trans ((run s).trans (unary_of_operand g hs))
    exact ⟨_, (run s').trans (unary_of_operand g (hstack.trans hs)), hU.setStack _ hR⟩
  | pop run row =>
    obtain ⟨a, rest, hs⟩ := List.exists_cons_of_length_pos (row.1 ▸ hc.operands)
    cases h.symm.trans ((run s).trans (execPop_of_operand hs))
    exact ⟨_, (run s').trans (execPop_of_operand (hstack.trans hs)), hU.setStack _ hR⟩
  | store w _ run row =>
    obtain ⟨-, -, -, -, hstore⟩ := row
    obtain ⟨a, b, rest, hs, hcap, -⟩ := hc.stored hstore
    cases h.symm.trans ((run s).trans (store_of_operands w hs hcap))
    have hcap' : s'.exceedsMemCap (a.toNat + 32) = false := by rwa [State.exceedsMemCap, hU.cfg hR]
    exact ⟨_, (run s').trans (store_of_operands w (hstack.trans hs) hcap'),
      hU.setMem (storeMem w · a.toNat b) (hU.setStack rest hR)⟩
  | push run row =>
    obtain ⟨-, -, hpush, -⟩ := row
    have hroom := hc.room hpush
    cases h.symm.trans ((run s).trans (pushImmediate_of_room hroom))
    have hroom' : s'.stackFull = false := by rwa [State.stackFull, hstack, hU.cfg hR]
    refine ⟨_, (run s').trans (pushImmediate_of_room hroom'), ?_⟩
    rw [hstack]
    exact hU.advance i.immBytes (hU.setStack (i.imm :: s.stack) hR)

theorem exec_related (hU : Unread R) (hR : R s s') (h : exec i s = .next t) : ∃ t', exec i s' = .next t' ∧ R t t' := by
  rcases exec_cases_of_next h with hc | ⟨k, hk, rfl⟩
  · exact exec_related_of_completes hU hR hc h
  · exact ⟨_, exec_of_faultsWith (faultsWith_of_stack_eq (hU.stack hR) (hU.cfg hR) hk), hU.fault k hR⟩

/-! ## The code buffer -/

/-- The two states differ in the code buffer, which is `c` in the second. -/
def WithCode (c : List Byte) (s s' : State) : Prop := s' = { s with code := c }

theorem unread_withCode (c : List Byte) : Unread (WithCode c) where
  cfg := by rintro s _ rfl; rfl
  stack := by rintro s _ rfl; rfl
  setStack := by rintro s _ l rfl; rfl
  setMem := by rintro s _ f rfl; rfl
  advance := by rintro s _ n rfl; rfl
  fault := by rintro s _ k rfl; rfl

theorem exec_withCode (c : List Byte) (h : exec i s = .next t) :
    exec i { s with code := c } = .next { t with code := c } := by
  obtain ⟨_, h', rfl⟩ := exec_related (unread_withCode c) (s' := { s with code := c }) rfl h
  exact h'

/-! ## Memory -/

theorem sameButMemory_iff : s.SameButMemory s' ↔ ∃ m, s' = { s with mem := m } := by
  refine ⟨fun h => ⟨s'.mem, h.symm⟩, ?_⟩
  rintro ⟨m, rfl⟩
  rfl

theorem unread_sameButMemory : Unread State.SameButMemory := by
  constructor
  all_goals
    intro s s'
    simp only [sameButMemory_iff, forall_exists_index]
  case cfg => rintro m rfl; rfl
  case stack => rintro m rfl; rfl
  case setStack => rintro l m rfl; exact ⟨m, rfl⟩
  case setMem => rintro f m rfl; exact ⟨f m, rfl⟩
  case advance => rintro n m rfl; exact ⟨m, rfl⟩
  case fault => rintro k m rfl; exact ⟨m, rfl⟩

theorem step_sameButMemory (hR : s.SameButMemory s') (h : step s = .next t) :
    ∃ t', step s' = .next t' ∧ t.SameButMemory t' := by
  obtain ⟨m, rfl⟩ := sameButMemory_iff.1 hR
  cases step_cases_of_next h with
  | final hs ht => exact ⟨_, step_of_final hs, ht ▸ hR⟩
  | halts hs hpc ht => exact ⟨_, step_of_atEnd hs hpc, sameButMemory_iff.2 ⟨m, by rw [ht]; rfl⟩⟩
  | runs i hs hpc hd hx =>
    have hfetched := unread_sameButMemory.advance 1 hR
    obtain ⟨t', hx', ht'⟩ := exec_related unread_sameButMemory hfetched hx
    exact ⟨t', (step_of_decode (s := { s with mem := m }) hs hpc hd).trans hx', ht'⟩
  | skips e hs hpc hd hp ht =>
    exact ⟨_, (step_unrecognized_by_policy (s := { s with mem := m }) hs hpc hd).1 hp,
      sameButMemory_iff.2 ⟨m, by rw [ht]; rfl⟩⟩
  | rejects e hs hpc hd hp ht =>
    exact ⟨_, (step_unrecognized_by_policy (s := { s with mem := m }) hs hpc hd).2 hp,
      sameButMemory_iff.2 ⟨m, by rw [ht]; rfl⟩⟩

theorem runSteps_sameButMemory (n : Nat) (hR : s.SameButMemory s') (h : runSteps n s = .next t) :
    ∃ t', runSteps n s' = .next t' ∧ t.SameButMemory t' := by
  induction n generalizing s s' with
  | zero => cases h; exact ⟨s', rfl, hR⟩
  | succ n ih =>
    have hstatus : s'.status = s.status := by
      obtain ⟨m, rfl⟩ := sameButMemory_iff.1 hR
      rfl
    by_cases hs : s.status = .running
    · obtain ⟨u, hu, -⟩ := step_cases s
      obtain ⟨u', hu', hRu⟩ := step_sameButMemory hR hu
      rw [runSteps_succ_of_running hs hu] at h
      rw [runSteps_succ_of_running (hstatus.trans hs) hu']
      exact ih hRu h
    · cases h.symm.trans (runSteps_of_final hs)
      exact ⟨s', runSteps_of_final fun hs' => hs (hstatus.symm.trans hs'), hR⟩

theorem run_sameButMemory (hR : s.SameButMemory s') (h : run s = .next t) :
    ∃ t', run s' = .next t' ∧ t.SameButMemory t' := by
  obtain ⟨m, rfl⟩ := sameButMemory_iff.1 hR
  exact runSteps_sameButMemory _ hR h

/-- What one state of a pair reaches, the other reaches up to memory; there is one next state, so any two answers agree
that far. -/
theorem sameButMemory_of_next {f : State → Host.Outcome State Fault Refusal}
    (hf : ∃ u, f s' = .next u ∧ t.SameButMemory u) (h' : f s' = .next t') : t.SameButMemory t' := by
  obtain ⟨u, hu, ht⟩ := hf
  cases hu.symm.trans h'
  exact ht

/-- Settles O45: an instruction reads neither the bytes nor the length of memory (R51, C4), so a step keeps the pair alike
but for memory, and so do the steps of `run()`. -/
theorem memoryContentsNeverInfluenceARun : Obligations.MemoryContentsNeverInfluenceARun :=
  ⟨fun _ _ _ _ hR h h' => sameButMemory_of_next (step_sameButMemory hR h) h',
    fun _ _ _ _ hR h h' => sameButMemory_of_next (run_sameButMemory hR h) h'⟩

end Sys2Proof.Proofs
end

section
/-! SUPPORT. The statements of 60_exceptions.md: when a fault is raised (R200), what its entry leaves (R206), and that a
final status is kept (R218). -/

namespace Sys2Proof.Proofs

open Sys2Proof Sys2Proof.Machine

variable {i : Instr} {s t : State} {k : FaultKind}

/-! ## The reasons of R200 in terms of the configuration -/

/-- An instruction faults only with a kind that the configuration has (R200). -/
theorem existsIn_of_faultsWith (h : FaultsWith i s k) : k.existsIn s.cfg = true := by
  cases k with
  | stackUnderflow => rfl
  | invalidOpcode => exact h.elim
  | stackOverflow =>
    obtain ⟨-, hfull⟩ := h
    rw [FaultKind.existsIn, stackFull_iff.1 hfull]
    rfl
  | memoryLimit =>
    obtain ⟨-, a, b, rest, -, hcap⟩ := h
    obtain ⟨c, hc, -⟩ := exceedsMemCap_iff.1 hcap
    rw [FaultKind.existsIn, hc]
    rfl

theorem faultsWith_stackOverflow_iff :
    FaultsWith i s .stackOverflow ↔ i.isPush = true ∧ s.cfg.stackCap = some s.stack.length :=
  and_congr_right fun _ => stackFull_iff

theorem faultsWith_memoryLimit_iff : FaultsWith i s .memoryLimit ↔
    i.isStore = true ∧ ∃ a b rest c, s.stack = a :: b :: rest ∧ s.cfg.memCap = some c ∧ c < a.toNat + 32 := by
  simp only [FaultsWith, exceedsMemCap_iff, exists_and_left]

/-- Settles O9: from a Running state an instruction ends in a fault exactly for that fault's reason (R200), written out
for each kind (D3, D4, D10). -/
theorem instructionsFaultExactlyAsTabulated : Obligations.InstructionsFaultExactlyAsTabulated := by
  intro i s hs
  obtain ⟨t, hx, -⟩ := exec_cases i s
  have hiff := status_faulted_iff hs hx
  exact ⟨t, hx, hiff .stackUnderflow, (hiff .stackOverflow).trans faultsWith_stackOverflow_iff,
    (hiff .memoryLimit).trans faultsWith_memoryLimit_iff, (hiff .invalidOpcode).1⟩

/-! ## What a fault leaves -/

theorem exec_eq_faultedState (hs : s.status = .running) (h : exec i s = .next t) (ht : t.status = .faulted k) :
    t = faultedState k s := by
  have hk := (status_faulted_iff hs h k).1 ht
  cases h.symm.trans (exec_of_faultsWith hk)
  rfl

/-- Settles O8: of the ways a step goes, only a decoded instruction and a rejected byte end in a fault, and each enters it
from the state after the fetch (R206, D5). -/
theorem faultEntryChangesOnlyPcAndStatus : Obligations.FaultEntryChangesOnlyPcAndStatus := by
  intro s t k hs h ht
  cases step_cases_of_next h with
  | final hfin => exact absurd hs hfin
  | halts _ _ hhalt => subst hhalt; cases ht
  | runs i _ _ _ hx => exact exec_eq_faultedState (s := fetchNext s) hs hx ht
  | skips _ _ _ _ _ hskip =>
    rw [hskip, fetchNext_status, hs] at ht
    cases ht
  | rejects _ _ _ _ _ hrej => subst hrej; cases ht; rfl

/-- Settles O11: with both capacities infinite and the policy Nop, the other three kinds do not exist (R5, R200). -/
theorem referenceConfigurationFaultsOnlyOnUnderflow : Obligations.ReferenceConfigurationFaultsOnlyOnUnderflow := by
  intro s t k hs hstack hmem hnop h ht
  obtain ⟨-, hfault⟩ | ⟨i, hd, hk⟩ := step_faulted_cases hs h ht
  · cases hnop.symm.trans hfault
  · have hexists : k.existsIn s.cfg = true := existsIn_of_faultsWith hk
    cases k with
    | stackUnderflow => exact ⟨rfl, i, hd, hk⟩
    | invalidOpcode => exact hk.elim
    | stackOverflow => simp [FaultKind.existsIn, hstack] at hexists
    | memoryLimit => simp [FaultKind.existsIn, hmem] at hexists

/-- Settles O6: neither `step` nor `run()` does anything in a final status (R218, D5; log 3). -/
theorem finalStatusIsKept : Obligations.FinalStatusIsKept :=
  fun _ hs => ⟨step_of_final hs, runSteps_of_final hs⟩

end Sys2Proof.Proofs
end

section
/-! SUPPORT. The statements of 10_state.md: the reset values, the frame of a step, what becomes of memory, and the
invariant of the reachable states. -/

namespace Sys2Proof.Proofs

open Sys2Proof Sys2Proof.Machine

variable {i : Instr} {s t : State} {k : FaultKind} {n : Nat}

/-! ## Construction -/

/-- Settles O1: `construct` written out field by field (R33, R230; D7, log 2). -/
theorem constructedCoreHasResetValues : Obligations.ConstructedCoreHasResetValues :=
  fun cfg code => ⟨⟨construct_code cfg code, construct_pc cfg code, construct_stack cfg code, rfl, rfl,
    construct_status cfg code, construct_cfg cfg code⟩, rfl⟩

theorem withinCap_iff {cap : Option Nat} : withinCap cap n = true ↔ ∀ c, cap = some c → n ≤ c := by
  cases cap <;> simp [withinCap]

theorem withinCap_zero (cap : Option Nat) : withinCap cap 0 = true := withinCap_iff.2 fun c _ => Nat.zero_le c

theorem inv_construct (cfg : Config) (code : List Byte) : (State.construct cfg code).Inv :=
  ⟨Memory.wf_empty, Nat.zero_le _, withinCap_zero _, withinCap_zero _, rfl⟩

/-- Settles O2: nothing is stored or stacked yet, so every capacity holds; reset is a construction (log 2). -/
theorem constructedCoreMeetsTheInvariant : Obligations.ConstructedCoreMeetsTheInvariant :=
  ⟨inv_construct, inv_construct _ _⟩

/-! ## The frame of a step -/

theorem exec_cfg (h : exec i s = .next t) : t.cfg = s.cfg := by
  rcases exec_cases_of_next h with hc | ⟨k, -, rfl⟩
  · exact hc.cfg
  · rfl

/-- A step writes neither the configuration nor the code (R21, R31). -/
theorem step_cfg_and_code (h : step s = .next t) : t.cfg = s.cfg ∧ t.code = s.code := by
  cases step_cases_of_next h with
  | final _ ht | halts _ _ ht | skips _ _ _ _ _ ht | rejects _ _ _ _ _ ht => rw [ht]; exact ⟨rfl, rfl⟩
  | runs i _ _ _ hx => exact ⟨exec_cfg (s := fetchNext s) hx, (exec_code_and_le_pc hx).1⟩

/-- Settles O39: by the frame of a step (log 1). -/
theorem stepKeepsConfiguration : Obligations.StepKeepsConfiguration := fun _ _ h => (step_cfg_and_code h).1

/-- Settles O38: the code is set by construction, kept by the frame of a step, and not read by a handler (log 12). -/
theorem codeIsSetOnceAndOnlyFetched : Obligations.CodeIsSetOnceAndOnlyFetched :=
  ⟨construct_code, fun _ _ h => (step_cfg_and_code h).2, fun _ _ _ c h => exec_withCode c h⟩

/-! ## Memory over an instruction and a step -/

theorem isStore_iff : i.isStore = true ↔ i = .mstore ∨ i = .mstore8 := by
  cases i <;> simp [Instr.isStore]

/-- An instruction other than a completed store leaves memory as it was; a store that completes leaves `storeMem` of it
(R28). -/
theorem exec_mem_cases (h : exec i s = .next t) : t.mem = s.mem ∨
    (i.isStore = true ∧ ∃ w a b, IsWrite w ∧ s.exceedsMemCap (a + 32) = false ∧ t.mem = storeMem w s.mem a b) := by
  rcases exec_cases_of_next h with hc | ⟨k, -, rfl⟩
  · cases hi : i.isStore with
    | false => exact .inl (hc.mem hi)
    | true =>
      obtain ⟨w, a, b, -, hw, -, hcap, hmem⟩ := exists_storeMem_of_completes hc hi
      exact .inr ⟨rfl, w, a.toNat, b, hw, hcap, hmem⟩
  · exact .inl rfl

theorem exec_msize_le (h : exec i s = .next t) : s.mem.msize ≤ t.mem.msize := by
  rcases exec_mem_cases h with hmem | ⟨-, w, a, b, hw, -, hmem⟩
  · rw [hmem]
  · rw [hmem, storeMem_msize hw]
    exact le_max_left _ _

/-- Only a step that runs an instruction can change memory. -/
theorem step_mem_cases (h : step s = .next t) :
    t.mem = s.mem ∨ ∃ i, decodeAtPc s = .ok i ∧ exec i (fetchNext s) = .next t := by
  cases step_cases_of_next h with
  | final _ ht | halts _ _ ht | skips _ _ _ _ _ ht | rejects _ _ _ _ _ ht => rw [ht]; exact .inl rfl
  | runs i _ _ hd hx => exact .inr ⟨i, hd, hx⟩

theorem step_msize_le (h : step s = .next t) : s.mem.msize ≤ t.mem.msize := by
  obtain hmem | ⟨i, -, hx⟩ := step_mem_cases h
  · rw [hmem]
  · exact exec_msize_le (s := fetchNext s) hx

theorem decodeAtPc_of_step_mem_ne (h : step s = .next t) (hne : t.mem ≠ s.mem) :
    decodeAtPc s = .ok .mstore ∨ decodeAtPc s = .ok .mstore8 := by
  obtain hmem | ⟨i, hd, hx⟩ := step_mem_cases h
  · exact absurd hmem hne
  · obtain hmem | ⟨hstore, -⟩ := exec_mem_cases (s := fetchNext s) hx
    · exact absurd hmem hne
    · obtain rfl | rfl := isStore_iff.1 hstore
      · exact .inl hd
      · exact .inr hd

/-- A store that stays Running completed, so its offset fits. -/
theorem exceedsMemCap_of_running_store {a b : Word} {rest : List Word} (hi : i.isStore = true)
    (hs : s.stack = a :: b :: rest) (h : exec i s = .next t) (ht : t.status = .running) :
    s.exceedsMemCap (a.toNat + 32) = false := by
  rcases exec_cases_of_next h with hc | ⟨k, -, rfl⟩
  · obtain ⟨a', b', rest', hs', hcap, -⟩ := hc.stored hi
    cases hs.symm.trans hs'
    exact hcap
  · cases ht

/-- Settles O37: the snapshot and the growth of memory by what a store makes of it (R42, C5), the rest by what an
instruction and a step can do to memory, and that no instruction reads it (R51). -/
theorem memoryIsEmptyAtFirstGrowsOnlyAndIsWrittenOnlyByStores :
    Obligations.MemoryIsEmptyAtFirstGrowsOnlyAndIsWrittenOnlyByStores := by
  refine ⟨fun _ _ => rfl, length_memorySnapshot, fun _ _ h => step_msize_le h, ?_, ?_,
    fun _ _ h hne => decodeAtPc_of_step_mem_ne h hne, ?_⟩
  · intro s t i a b rest hm _ hs hi h ht
    have hcap := exceedsMemCap_of_running_store (isStore_iff.2 hi) hs h ht
    obtain rfl | rfl := hi
    · cases h.symm.trans (store_of_operands Memory.write32 hs hcap)
      exact ⟨rfl, fun x hx hlt hout _ => byte?_storeMem_write32_of_created hm hx hlt (hout rfl)⟩
    · cases h.symm.trans (store_of_operands Memory.write8 hs hcap)
      exact ⟨rfl, fun x hx hlt _ hne => byte?_storeMem_write8_of_created hm hx hlt (hne rfl)⟩
  · intro i s t h1 h2 h
    obtain hmem | ⟨hstore, -⟩ := exec_mem_cases h
    · exact hmem
    · exact absurd (isStore_iff.1 hstore) (not_or.2 ⟨h1, h2⟩)
  · intro i s s' t t' hR h h'
    exact sameButMemory_of_next (exec_related unread_sameButMemory hR h) h'

/-! ## Depth over an instruction -/

/-- A completed instruction leaves `depth - pops + pushes` Words, those below its operands unchanged (R146). -/
theorem stack_of_completes (h : Completes i s t) :
    t.stack.length + i.pops = s.stack.length + i.pushes ∧ t.stack.drop i.pushes = s.stack.drop i.pops := by
  obtain ⟨res, hres, hstack⟩ := h.stack
  have hpops := h.operands
  rw [hstack, ← hres]
  refine ⟨?_, List.drop_left⟩
  rw [List.length_append, List.length_drop]
  omega

/-- Settles O41: an instruction that stays Running completed, with the columns of its row (R75, R146). -/
theorem stackEffectMatchesTheTable : Obligations.StackEffectMatchesTheTable := by
  intro i s t _ h ht
  rcases exec_cases_of_next h with hc | ⟨k, -, rfl⟩
  · exact ⟨hc.operands, stack_of_completes hc⟩
  · cases ht

/-- Only PUSH0 and the PUSHN raise the depth, by one (R75). -/
theorem pushes_le (i : Instr) : i.pushes ≤ i.pops ∨ (i.isPush = true ∧ i.pushes = 1) := by
  cases shape_of i with
  | binary _ _ row | unary _ _ row | store _ _ _ row | pop _ row => left; omega
  | push _ row => right; exact ⟨row.2.2.1, row.2.1⟩

/-- An instruction that completes stays within STACK_CAP: a push found the depth below it (R140, D3). -/
theorem withinCap_stack_of_completes (h : Completes i s t) (hcap : withinCap s.cfg.stackCap s.stack.length = true) :
    withinCap t.cfg.stackCap t.stack.length = true := by
  rw [h.cfg]
  refine withinCap_iff.2 fun c hc => ?_
  have hle := withinCap_iff.1 hcap c hc
  have hdepth := (stack_of_completes h).1
  obtain hpushes | ⟨hpush, hone⟩ := pushes_le i
  · omega
  · have hne : s.stack.length ≠ c := fun he => stackFull_eq_false_iff.1 (h.room hpush) (he ▸ hc)
    omega

theorem withinCap_mem_of_exec (h : exec i s = .next t) (hcap : withinCap s.cfg.memCap s.mem.msize = true) :
    withinCap t.cfg.memCap t.mem.msize = true := by
  rw [exec_cfg h]
  rcases exec_mem_cases h with hmem | ⟨-, w, a, b, hw, hfits, hmem⟩
  · rwa [hmem]
  · rw [hmem, storeMem_msize hw]
    exact withinCap_iff.2 fun c hc => max_le (withinCap_iff.1 hcap c hc) (exceedsMemCap_eq_false_iff.1 hfits c hc)

theorem mem_wf_of_exec (h : exec i s = .next t) (hm : s.mem.wf = true) : t.mem.wf = true := by
  rcases exec_mem_cases h with hmem | ⟨-, w, a, b, hw, -, hmem⟩
  · rwa [hmem]
  · rw [hmem]
    exact storeMem_wf hw hm

/-! ## The invariant -/

theorem statusOk_of_running (h : s.status = .running) : s.statusOk = true := by rw [State.statusOk, h]

theorem statusOk_halt_iff (s : State) : (halt s).statusOk = true ↔ s.code.length ≤ s.pc := decide_eq_true_iff

theorem statusOk_faultedState_iff (k : FaultKind) (s : State) :
    (faultedState k s).statusOk = true ↔ k.existsIn s.cfg = true ∧ 0 < s.pc ∧ s.pc ≤ s.code.length := by
  have hok : (faultedState k s).statusOk = (k.existsIn s.cfg && 0 < s.pc && s.pc ≤ s.code.length) := rfl
  rw [hok, Bool.and_eq_true, Bool.and_eq_true, decide_eq_true_iff, decide_eq_true_iff, and_assoc]

/-- The invariant with pc at most one past a code address and status Running: what the fetch hands to a handler. -/
structure Fetched (s : State) : Prop where
  inv : s.Inv
  running : s.status = .running
  pc_pos : 0 < s.pc
  pc_le : s.pc ≤ s.code.length

theorem fetched_fetchNext (h : s.Inv) (hs : s.status = .running) (hpc : s.pc < s.code.length) : Fetched (fetchNext s) := by
  obtain ⟨hm, -, hstack, hmem, -⟩ := h
  refine ⟨⟨hm, ?_, hstack, hmem, statusOk_of_running hs⟩, hs, Nat.succ_pos _, hpc⟩
  rw [fetchNext_pc, fetchNext_code]
  omega

/-- A fault entry keeps the invariant when its kind exists (R200, R206): pc is one past a code address. -/
theorem inv_faultedState (h : Fetched s) (hk : k.existsIn s.cfg = true) : (faultedState k s).Inv := by
  obtain ⟨hm, hpc, hstack, hmem, -⟩ := h.inv
  exact ⟨hm, hpc, hstack, hmem, (statusOk_faultedState_iff k s).2 ⟨hk, h.pc_pos, h.pc_le⟩⟩

theorem inv_of_completes (h : Fetched s) (hx : exec i s = .next t) (hc : Completes i s t) : t.Inv := by
  obtain ⟨hm, -, hstack, hmem, -⟩ := h.inv
  refine ⟨mem_wf_of_exec hx hm, ?_, withinCap_stack_of_completes hc hstack, withinCap_mem_of_exec hx hmem, ?_⟩
  · rw [hc.pc, hc.code]
    exact Nat.add_le_add h.pc_le (immBytes_le i)
  · exact statusOk_of_running (hc.status.trans h.running)

theorem inv_halt (h : s.Inv) (hpc : s.code.length ≤ s.pc) : (halt s).Inv := by
  obtain ⟨hm, hle, hstack, hmem, -⟩ := h
  exact ⟨hm, hle, hstack, hmem, (statusOk_halt_iff s).2 hpc⟩

/-- Settles O3: by the ways a step goes; an instruction and a rejected byte start from the fetched state, from which each
completion and each fault entry keeps the invariant. -/
theorem everyStepKeepsTheInvariant : Obligations.EveryStepKeepsTheInvariant := by
  intro s t h hstep
  cases step_cases_of_next hstep with
  | final _ ht => exact ht ▸ h
  | halts _ hpc ht => exact ht ▸ inv_halt h hpc
  | runs i hs hpc _ hx =>
    have hf := fetched_fetchNext h hs hpc
    rcases exec_cases_of_next hx with hc | ⟨k, hk, rfl⟩
    · exact inv_of_completes hf hx hc
    · exact inv_faultedState hf (existsIn_of_faultsWith hk)
  | skips _ hs hpc _ _ ht => exact ht ▸ (fetched_fetchNext h hs hpc).inv
  | rejects _ hs hpc _ hp ht =>
    rw [ht]
    exact inv_faultedState (fetched_fetchNext h hs hpc) (decide_eq_true hp)

end Sys2Proof.Proofs
end

section
/-! SUPPORT. The statement of 70_reset_and_hazards.md about the length of a run (R240). -/

namespace Sys2Proof.Proofs

open Sys2Proof Sys2Proof.Machine

variable {k : Nat} {s t u : State}

theorem running_of_firstFinal_pos (h : FirstFinal k s t) (hk : 0 < k) : s.status = .running := by
  obtain ⟨s', hs', hrunning⟩ := h.before 0 hk
  cases hs'
  exact hrunning

theorem firstFinal_of_succ (h : FirstFinal (k + 1) s t) (hstep : step s = .next u) : FirstFinal k u t where
  reached := core_run_succ hstep ▸ h.reached
  final := h.final
  before j hj := core_run_succ hstep ▸ h.before (j + 1) (Nat.succ_lt_succ hj)

/-- Each step between Running states leaves less code ahead of pc, so there are at most as many as there is code, and one
more that ends the run. -/
theorem firstFinal_le (h : FirstFinal k s t) : k ≤ s.code.length - s.pc + 1 := by
  induction k generalizing s with
  | zero => exact Nat.zero_le _
  | succ k ih =>
    obtain ⟨u, hstep, -⟩ := step_cases s
    have hu := firstFinal_of_succ h hstep
    rcases Nat.eq_zero_or_pos k with rfl | hk
    · exact Nat.succ_le_succ (Nat.zero_le _)
    · have hless := step_codeLeft_lt (running_of_firstFinal_pos h (Nat.succ_pos k)) hstep (running_of_firstFinal_pos hu hk)
      exact Nat.succ_le_succ ((ih hu).trans hless)

theorem exists_final_within_codeLeft (s : State) : ∃ k ≤ s.code.length - s.pc + 1, ∃ t : State,
    Host.Core.run Sys2Proof.core k s = .next t ∧ t.status ≠ .running := by
  obtain ⟨k, t, -, hfirst⟩ := exists_runSteps_firstFinal (s.code.length - s.pc + 1) s fun _ => Nat.lt_succ_self _
  exact ⟨k, firstFinal_le hfirst, t, hfirst.reached, hfirst.final⟩

/-- Settles O44: the first final state that `run()` reaches is that near; a constructed core has pc 0. -/
theorem runEndsWithinTheCodeLength : Obligations.RunEndsWithinTheCodeLength :=
  ⟨exists_final_within_codeLeft, fun cfg code => exists_final_within_codeLeft (State.construct cfg code)⟩

end Sys2Proof.Proofs
end

section
/-! SUPPORT. The statements of 40_fetch_dispatch.md about PUSH0 and the PUSHN (R105, R106): one rule for every N. -/

namespace Sys2Proof.Proofs

open Sys2Proof Sys2Proof.Machine Sys2Proof.Claims

variable {i : Instr} {s : State} {n : Nat} {op : Byte}

theorem exec_of_isPush (h : i.isPush = true) (s : State) : exec i s = pushImmediate i.immBytes i.imm s := by
  cases shape_of i with
  | binary _ _ row | unary _ _ row | store _ _ _ row | pop _ row => simp [h] at row
  | push run _ => exact run s

theorem exec_push_of_room (h : i.isPush = true) (hroom : s.cfg.stackCap ≠ some s.stack.length) :
    exec i s = .next { s with stack := i.imm :: s.stack, pc := s.pc + i.immBytes } :=
  (exec_of_isPush h s).trans (pushImmediate_of_room (stackFull_eq_false_iff.2 hroom))

theorem exec_push_of_full (h : i.isPush = true) (hfull : s.cfg.stackCap = some s.stack.length) :
    exec i s = .next (faultedState .stackOverflow s) :=
  (exec_of_isPush h s).trans (pushImmediate_of_full (stackFull_iff.2 hfull))

/-- PUSHN follows the rule of R106 for its N, given only that `push` is the table's PUSHN and `op` its byte. -/
theorem pushRule_of_pushInstr {push : Word → Instr} (h1 : 1 ≤ n) (h2 : n ≤ 32) (hop : op.toNat = 0x5f + n)
    (hpush : ∀ v, pushInstr n v = some (push v)) : PushRule n push op := by
  have hrow : ∀ v, (push v).immBytes = n ∧ (push v).imm = v ∧ (push v).isPush = true := fun v => by
    obtain ⟨i, hi, hbytes⟩ := pushInstr_eq_some n v h1 h2
    cases hi.symm.trans (hpush v)
    exact hbytes
  refine ⟨fun m v => ?_, fun s v hroom => ?_, fun s v hfull => ?_, fun s hs hcode => ?_, fun code p => ?_⟩
  · obtain ⟨hbytes, -, -⟩ := hrow v
    exact ⟨immBytesOf (push v).imm (push v).immBytes, by rw [encode, opcode_eq_of_toNat m h1 hbytes hop],
      by rw [length_immBytesOf, hbytes]⟩
  · obtain ⟨hbytes, himm, hisPush⟩ := hrow v
    rw [exec_push_of_room hisPush hroom, hbytes, himm]
  · obtain ⟨-, -, hisPush⟩ := hrow v
    exact ⟨_, exec_push_of_full hisPush hfull, rfl, rfl, rfl, rfl⟩
  · exact step_of_decode hs (lt_length_of_getElem? hcode) (decode_pushByte s.cfg.opcodes hop h1 h2 hcode (hpush _))
  · exact readImm_toNat_lt code p h2

/-- Settles O12: PUSH0 is a push of 0 with no immediate bytes (R105, D3). -/
theorem push0PushesZero : Obligations.Push0PushesZero := by
  refine ⟨fun _ => rfl, fun s hroom => exec_push_of_room (i := .push0) rfl hroom, fun s hfull => ?_⟩
  exact ⟨_, exec_push_of_full rfl hfull, rfl, rfl, rfl⟩

/-- Settles O13: R107 to R114 by the rule for every N. -/
theorem push1To8PushTheirImmediates : Obligations.Push1To8PushTheirImmediates := by
  refine ⟨?_, ?_, ?_, ?_, ?_, ?_, ?_, ?_⟩
  all_goals exact pushRule_of_pushInstr (by decide) (by decide) rfl fun _ => rfl

/-- Settles O14: R115 to R122 by the rule for every N. -/
theorem push9To16PushTheirImmediates : Obligations.Push9To16PushTheirImmediates := by
  refine ⟨?_, ?_, ?_, ?_, ?_, ?_, ?_, ?_⟩
  all_goals exact pushRule_of_pushInstr (by decide) (by decide) rfl fun _ => rfl

/-- Settles O15: R123 to R130 by the rule for every N. -/
theorem push17To24PushTheirImmediates : Obligations.Push17To24PushTheirImmediates := by
  refine ⟨?_, ?_, ?_, ?_, ?_, ?_, ?_, ?_⟩
  all_goals exact pushRule_of_pushInstr (by decide) (by decide) rfl fun _ => rfl

/-- Settles O16: R131 to R138 by the rule for every N. -/
theorem push25To32PushTheirImmediates : Obligations.Push25To32PushTheirImmediates := by
  refine ⟨?_, ?_, ?_, ?_, ?_, ?_, ?_, ?_⟩
  all_goals exact pushRule_of_pushInstr (by decide) (by decide) rfl fun _ => rfl

end Sys2Proof.Proofs
end

section
/-! SUPPORT. The statements of 42_arith.md to 45_shift.md about the other binary instructions: each is the binary template
(R144) over its formula on naturals. -/

namespace Sys2Proof.Proofs

open Sys2Proof Sys2Proof.Machine Sys2Proof.Claims

variable {a b : Word}

/-! ## Arithmetic -/

/-- Settles O21: the template over `mulWord`, whose formula is the product mod 2^256 (R151); the byte is the map's (D1). -/
theorem mulPushesProduct : Obligations.MulPushesProduct :=
  ⟨⟨fun _ => rfl, rfl⟩, binaryRule_of_exec_eq_binary (fun _ => rfl) mulWord_eq⟩

/-- Settles O22: the template over `modWord`, whose formula is 0 for the modulus 0 and the remainder otherwise (R154). -/
theorem modPushesRemainderOfSecondByFirst : Obligations.ModPushesRemainderOfSecondByFirst :=
  ⟨⟨fun _ => rfl, rfl⟩, binaryRule_of_exec_eq_binary (fun _ => rfl) modWord_eq⟩

/-- Settles O49: DIV and MOD push the quotient and the remainder, which recombine exactly for a divisor other than 0
(R155); for the divisor 0 both are 0 (R205). -/
theorem divAndModRecombineExactly : Obligations.DivAndModRecombineExactly := by
  intro s a b rest hs
  refine ⟨_, _, divWord a b, modWord a b, binary_of_operands divWord hs, binary_of_operands modWord hs, rfl, rfl,
    div_mod_recombine a b, ?_⟩
  rintro rfl
  exact ⟨rfl, rfl⟩

/-- Settles O53: ADD of `a` to the difference `b - a` is `b` (R8). -/
theorem subThenAddRestoresTheMinuend : Obligations.SubThenAddRestoresTheMinuend := by
  intro s a b rest hs
  refine ⟨_, _, binary_of_operands subWord hs,
    binary_of_operands (s := { s with stack := a :: subWord a b :: rest }) addWord rfl, ?_⟩
  have hsum : addWord a (subWord a b) = b := by rw [addWord, subWord, BitVec.add_comm, BitVec.sub_add_cancel]
  exact congrArg (· :: rest) hsum

/-! ## Comparison -/

/-- Settles O23: the template over `ltWord`, with the first-popped Word on the left (R160, C6). -/
theorem ltPushesFirstBelowSecond : Obligations.LtPushesFirstBelowSecond :=
  ⟨⟨fun _ => rfl, rfl⟩, binaryRule_of_exec_eq_binary (fun _ => rfl) fun _ _ => truthWord_eq _⟩

/-- Settles O24: the template over `gtWord`, with the first-popped Word on the left (R161, C6). -/
theorem gtPushesFirstAboveSecond : Obligations.GtPushesFirstAboveSecond :=
  ⟨⟨fun _ => rfl, rfl⟩, binaryRule_of_exec_eq_binary (fun _ => rfl) fun _ _ => truthWord_eq _⟩

/-- Settles O25: the template over `eqWord`; Words are equal exactly when their values are (R162). -/
theorem eqPushesEquality : Obligations.EqPushesEquality :=
  ⟨⟨fun _ => rfl, rfl⟩, binaryRule_of_exec_eq_binary (fun _ => rfl) eqWord_eq⟩

/-- By the order of the values: exactly one comparison answers 1 (R163). -/
theorem exactlyOne_lt_gt_eq (a b : Word) :
    (ltWord a b = 1 ∧ gtWord a b = 0 ∧ eqWord a b = 0) ∨ (ltWord a b = 0 ∧ gtWord a b = 1 ∧ eqWord a b = 0) ∨
      (ltWord a b = 0 ∧ gtWord a b = 0 ∧ eqWord a b = 1) := by
  simp only [ltWord, gtWord, eqWord, truthWord, decide_eq_true_eq, ← BitVec.toNat_inj (x := a)]
  rcases Nat.lt_trichotomy a.toNat b.toNat with h | h | h
  · exact .inl ⟨if_pos h, if_neg h.not_gt, if_neg h.ne⟩
  · exact .inr (.inr ⟨if_neg h.not_lt, if_neg h.not_gt, if_pos h⟩)
  · exact .inr (.inl ⟨if_neg h.not_gt, if_pos h, if_neg h.ne'⟩)

/-- Settles O50: the three handlers push the three comparisons, exactly one of which is 1. -/
theorem exactlyOneComparisonHolds : Obligations.ExactlyOneComparisonHolds := by
  intro s a b rest hs
  exact ⟨_, _, _, ltWord a b, gtWord a b, eqWord a b, binary_of_operands ltWord hs, binary_of_operands gtWord hs,
    binary_of_operands eqWord hs, rfl, rfl, rfl, exactlyOne_lt_gt_eq a b⟩

/-! ## Bitwise logic -/

/-- Settles O26: the template over `andWord`, bit by bit (R170). -/
theorem andPushesBitwiseAnd : Obligations.AndPushesBitwiseAnd := by
  refine ⟨⟨fun _ => rfl, rfl⟩, binaryRule_of_exec_eq_binary (fun _ => rfl) andWord_eq, fun a b k _ => ?_⟩
  rw [← andWord_eq, andWord, BitVec.getLsbD_and]

/-- Settles O27: the template over `orWord`, bit by bit (R171). -/
theorem orPushesBitwiseOr : Obligations.OrPushesBitwiseOr := by
  refine ⟨⟨fun _ => rfl, rfl⟩, binaryRule_of_exec_eq_binary (fun _ => rfl) orWord_eq, fun a b k _ => ?_⟩
  rw [← orWord_eq, orWord, BitVec.getLsbD_or]

/-- Settles O28: the template over `xorWord`, bit by bit (R172). -/
theorem xorPushesBitwiseXor : Obligations.XorPushesBitwiseXor := by
  refine ⟨⟨fun _ => rfl, rfl⟩, binaryRule_of_exec_eq_binary (fun _ => rfl) xorWord_eq, fun a b k _ => ?_⟩
  rw [← xorWord_eq, xorWord, BitVec.getLsbD_xor]

/-! ## Shifts -/

/-- Settles O29: the template over `shlWord`, whose formula reads the whole amount (R180, C1). -/
theorem shlShiftsSecondLeftByFirst : Obligations.ShlShiftsSecondLeftByFirst :=
  ⟨⟨fun _ => rfl, rfl⟩, binaryRule_of_exec_eq_binary (fun _ => rfl) shlWord_eq⟩

/-- Settles O30: the template over `shrWord`, whose formula reads the whole amount (R181, C1). -/
theorem shrShiftsSecondRightByFirst : Obligations.ShrShiftsSecondRightByFirst :=
  ⟨⟨fun _ => rfl, rfl⟩, binaryRule_of_exec_eq_binary (fun _ => rfl) shrWord_eq⟩

theorem shlWord_of_le (h : 256 ≤ a.toNat) : shlWord a b = 0 := if_pos h

theorem shrWord_of_le (h : 256 ≤ a.toNat) : shrWord a b = 0 := if_pos h

theorem shlWord_zero (b : Word) : shlWord 0 b = b := BitVec.shiftLeft_zero b

theorem shrWord_zero (b : Word) : shrWord 0 b = b := BitVec.ushiftRight_zero b

theorem shlWord_of_lt (h : a.toNat < 256) : shlWord a b = BitVec.ofNat 256 (b.toNat * 2 ^ a.toNat) := by
  rw [shlWord_eq, if_neg (Nat.not_le.2 h)]
  exact BitVec.eq_of_toNat_eq (Nat.mod_mod _ _)

theorem shrWord_of_lt (h : a.toNat < 256) : shrWord a b = BitVec.ofNat 256 (b.toNat / 2 ^ a.toNat) := by
  rw [shrWord_eq, if_neg (Nat.not_le.2 h)]

/-- Settles O31: what SHL and SHR push, for an amount of 256 or more, of 0, and below 256 (R182, C1). -/
theorem shiftAmountIsTheWholeWord : Obligations.ShiftAmountIsTheWholeWord := by
  intro s a b rest hs
  have hshl : exec .shl s = .next { s with stack := shlWord a b :: rest } := binary_of_operands shlWord hs
  have hshr : exec .shr s = .next { s with stack := shrWord a b :: rest } := binary_of_operands shrWord hs
  rw [hshl, hshr]
  refine ⟨fun h => ?_, fun h => ?_, fun h => ?_⟩
  · rw [shlWord_of_le h, shrWord_of_le h]
    exact ⟨rfl, rfl⟩
  · rw [h, shlWord_zero, shrWord_zero]
    exact ⟨rfl, rfl⟩
  · rw [shlWord_of_lt h, shrWord_of_lt h]
    exact ⟨rfl, rfl⟩

end Sys2Proof.Proofs
end
